-- ==== Sys2Proof/Word.lean ====
section
/-! DEFINITION. The machine's word, its register numbers and the names of its registers
(00_scope.md R7, R9, R10; 10_state.md R20, R21, R32). -/

namespace Sys2Proof

/-- A register, a memory cell and an instruction are all 32 bits (00_scope.md R7, R10). The reading `u(v)` is
`BitVec.toNat`, the reading `s(v)` is `BitVec.toInt`. -/
abbrev Word := BitVec 32

/-- A byte: only the loader's data cursor speaks of bytes (20_memory.md R52, R63). -/
abbrev Byte := BitVec 8

/-- The number of a general-purpose slot (10_state.md R21, 30_encoding.md R89: every 5-bit value is a slot). -/
abbrev Slot := Fin 32

/-- The registers a host or a system-call hook may name: the 32 slots and "the distinguished PC/HI/LO registers"
(10_state.md R39, R40). -/
inductive RegId where
  | gpr (i : Slot)
  | pc
  | hi
  | lo
deriving DecidableEq, Repr

end Sys2Proof
end

