-- ==== Sys2Proof/Syntax.lean ====
section
/-! DEFINITION. The instructions: one constructor per row of 30_encoding.md R92 (spec/opcode_table.json), with the
fields that row uses, in the assembly order of 30_encoding.md R109. -/

namespace Sys2Proof

/-- An instruction with its operands. Register fields are slots, `shamt` is a count, `imm` is a bit pattern,
`target` is a word index. -/
inductive Instr where
  | sll (rd rt : Slot) (shamt : Nat)
  | srl (rd rt : Slot) (shamt : Nat)
  | sra (rd rt : Slot) (shamt : Nat)
  | syscall
  | mfhi (rd : Slot)
  | mthi (rs : Slot)
  | mflo (rd : Slot)
  | mtlo (rs : Slot)
  | mult (rs rt : Slot)
  | multu (rs rt : Slot)
  | div (rs rt : Slot)
  | divu (rs rt : Slot)
  | add (rd rs rt : Slot)
  | sub (rd rs rt : Slot)
  | and (rd rs rt : Slot)
  | or (rd rs rt : Slot)
  | xor (rd rs rt : Slot)
  | slt (rd rs rt : Slot)
  | j (target : Nat)
  | ori (rt rs : Slot) (imm : BitVec 16)
deriving DecidableEq, Repr

end Sys2Proof
end

