-- ==== Sys2Proof/WellFormed.lean ====
section
/-! DEFINITION. The operands an encoding can hold (30_encoding.md R82): a shift count of 5 bits, a jump target of 26.
The other operands fit their field by their type. An ill-formed term is one no word decodes to
(notes/assumptions/26.md); the assembler's answer to such a value is not in the spec (R110). -/

namespace Sys2Proof

/-- Every operand fits its field of 30_encoding.md R82. -/
def Instr.wellFormed : Instr → Bool
  | .sll _ _ shamt | .srl _ _ shamt | .sra _ _ shamt => decide (shamt < 32)
  | .j target => decide (target < 2 ^ 26)
  | .syscall | .mfhi _ | .mthi _ | .mflo _ | .mtlo _ => true
  | .mult _ _ | .multu _ _ | .div _ _ | .divu _ _ => true
  | .add _ _ _ | .sub _ _ _ | .and _ _ _ | .or _ _ _ | .xor _ _ _ | .slt _ _ _ => true
  | .ori _ _ _ => true

end Sys2Proof
end

