-- ==== Sys2Proof/Decode.lean ====
section
/-! DEFINITION. The decoder and the encoder of 30_encoding.md: fields (R82), selector (R86), catalog (R92), operand
assembly (R89 to R91, R113), the assembler's direction (R100). Both are written from the same table `Opcode.sel`. -/

namespace Sys2Proof

/-- The entries of the catalog (30_encoding.md R92), the "exhaustive tagged-variant" of 70_reset_and_hazards.md R236. -/
inductive Opcode where
  | sll | srl | sra | syscall
  | mfhi | mthi | mflo | mtlo
  | mult | multu | div | divu
  | add | sub | and | or | xor | slt
  | j | ori
deriving DecidableEq, Repr

/-- Every entry of the catalog, in the table's order. -/
def Opcode.all : List Opcode :=
  [.sll, .srl, .sra, .syscall, .mfhi, .mthi, .mflo, .mtlo, .mult, .multu, .div, .divu,
   .add, .sub, .and, .or, .xor, .slt, .j, .ori]

/-- The column `sel` of 30_encoding.md R92. UNVERIFIED (notes/assumptions/14.md): the spec's numbers, not the source's. -/
def Opcode.sel : Opcode → Word
  | .sll     => 0x00000000#32
  | .srl     => 0x00000002#32
  | .sra     => 0x00000003#32
  | .syscall => 0x0000000C#32
  | .mfhi    => 0x00000010#32
  | .mthi    => 0x00000011#32
  | .mflo    => 0x00000012#32
  | .mtlo    => 0x00000013#32
  | .mult    => 0x00000018#32
  | .multu   => 0x00000019#32
  | .div     => 0x0000001A#32
  | .divu    => 0x0000001B#32
  | .add     => 0x00000020#32
  | .sub     => 0x00000022#32
  | .and     => 0x00000024#32
  | .or      => 0x00000025#32
  | .xor     => 0x00000026#32
  | .slt     => 0x0000002A#32
  | .j       => 0x08000000#32
  | .ori     => 0x34000000#32

/-- The selector of a word (30_encoding.md R86): the primary field kept in place, or the function field when it is zero. -/
def selector (w : Word) : Word :=
  let p := w &&& 0xFC000000#32
  if p ≠ 0#32 then p else w &&& 0x0000003F#32

/-- The catalog entry a selector names (30_encoding.md R88). -/
def Opcode.ofSel (sel : Word) : Option Opcode :=
  Opcode.all.find? (fun o => o.sel == sel)

/-- Bits `lo + width - 1` down to `lo` of a word (00_scope.md R9). -/
def bitField (w : Word) (lo width : Nat) : BitVec width := w.extractLsb' lo width

/-- The fields of 30_encoding.md R82. -/
def rsField (w : Word) : Slot := (bitField w 21 5).toFin
/-- The field `rt` (30_encoding.md R82). -/
def rtField (w : Word) : Slot := (bitField w 16 5).toFin
/-- The field `rd` (30_encoding.md R82). -/
def rdField (w : Word) : Slot := (bitField w 11 5).toFin
/-- The field `shamt` (30_encoding.md R82, R91). -/
def shamtField (w : Word) : Nat := (bitField w 6 5).toNat
/-- The field `imm` (30_encoding.md R82, R90). -/
def immField (w : Word) : BitVec 16 := bitField w 0 16
/-- The field `target` (30_encoding.md R82, R113). -/
def targetField (w : Word) : Nat := (bitField w 0 26).toNat

/-- The instruction of a catalog entry with the operands of a word; every field the entry does not use is ignored
(30_encoding.md R88). -/
def Opcode.assemble (o : Opcode) (w : Word) : Instr :=
  match o with
  | .sll     => .sll (rdField w) (rtField w) (shamtField w)
  | .srl     => .srl (rdField w) (rtField w) (shamtField w)
  | .sra     => .sra (rdField w) (rtField w) (shamtField w)
  | .syscall => .syscall
  | .mfhi    => .mfhi (rdField w)
  | .mthi    => .mthi (rsField w)
  | .mflo    => .mflo (rdField w)
  | .mtlo    => .mtlo (rsField w)
  | .mult    => .mult (rsField w) (rtField w)
  | .multu   => .multu (rsField w) (rtField w)
  | .div     => .div (rsField w) (rtField w)
  | .divu    => .divu (rsField w) (rtField w)
  | .add     => .add (rdField w) (rsField w) (rtField w)
  | .sub     => .sub (rdField w) (rsField w) (rtField w)
  | .and     => .and (rdField w) (rsField w) (rtField w)
  | .or      => .or (rdField w) (rsField w) (rtField w)
  | .xor     => .xor (rdField w) (rsField w) (rtField w)
  | .slt     => .slt (rdField w) (rsField w) (rtField w)
  | .j       => .j (targetField w)
  | .ori     => .ori (rtField w) (rsField w) (immField w)

/-- Why a word is no instruction: its selector is not in the catalog (30_encoding.md R95). -/
inductive DecodeReject where
  | unknownSelector (sel : Word)
deriving DecidableEq, Repr

/-- The decoder: total on 32-bit words (30_encoding.md R99). Whether selector 0 has a handler is a parameter of the
machine, which SLL's meaning asks (R94, notes/assumptions/9.md). -/
def decodeWord (w : Word) : Except DecodeReject Instr :=
  match Opcode.ofSel (selector w) with
  | some o => .ok (o.assemble w)
  | none   => .error (.unknownSelector (selector w))

/-- The host's reading of the decoder: the instruction whose bits are `w`, bits at and above `nbits` being zero. -/
def decodeTableWord (nbits w : Nat) : Option Instr :=
  (decodeWord (BitVec.ofNat 32 (w % 2 ^ nbits))).toOption

/-- The catalog entry of an instruction. -/
def Instr.opcode : Instr → Opcode
  | .sll _ _ _ => .sll
  | .srl _ _ _ => .srl
  | .sra _ _ _ => .sra
  | .syscall   => .syscall
  | .mfhi _    => .mfhi
  | .mthi _    => .mthi
  | .mflo _    => .mflo
  | .mtlo _    => .mtlo
  | .mult _ _  => .mult
  | .multu _ _ => .multu
  | .div _ _   => .div
  | .divu _ _  => .divu
  | .add _ _ _ => .add
  | .sub _ _ _ => .sub
  | .and _ _ _ => .and
  | .or _ _ _  => .or
  | .xor _ _ _ => .xor
  | .slt _ _ _ => .slt
  | .j _       => .j
  | .ori _ _ _ => .ori

/-- A field's value at its place in a word. -/
def atBit (v lo : Nat) : Word := BitVec.ofNat 32 v <<< lo

/-- R-type composition (30_encoding.md R100). -/
def encodeR (o : Opcode) (rs rt rd : Slot) (shamt : Nat) : Word :=
  o.sel ||| atBit rs 21 ||| atBit rt 16 ||| atBit rd 11 ||| atBit shamt 6

/-- I-type composition (30_encoding.md R100). -/
def encodeI (o : Opcode) (rs rt : Slot) (imm : BitVec 16) : Word :=
  o.sel ||| atBit rs 21 ||| atBit rt 16 ||| imm.setWidth 32

/-- J-type composition (30_encoding.md R100). -/
def encodeJ (o : Opcode) (target : Nat) : Word :=
  o.sel ||| atBit target 0

/-- The word of an instruction (30_encoding.md R100): "Fields an instruction does not use are encoded as zero." -/
def encode : Instr → Word
  | .sll rd rt shamt => encodeR .sll 0 rt rd shamt
  | .srl rd rt shamt => encodeR .srl 0 rt rd shamt
  | .sra rd rt shamt => encodeR .sra 0 rt rd shamt
  | .syscall         => encodeR .syscall 0 0 0 0
  | .mfhi rd         => encodeR .mfhi 0 0 rd 0
  | .mthi rs         => encodeR .mthi rs 0 0 0
  | .mflo rd         => encodeR .mflo 0 0 rd 0
  | .mtlo rs         => encodeR .mtlo rs 0 0 0
  | .mult rs rt      => encodeR .mult rs rt 0 0
  | .multu rs rt     => encodeR .multu rs rt 0 0
  | .div rs rt       => encodeR .div rs rt 0 0
  | .divu rs rt      => encodeR .divu rs rt 0 0
  | .add rd rs rt    => encodeR .add rs rt rd 0
  | .sub rd rs rt    => encodeR .sub rs rt rd 0
  | .and rd rs rt    => encodeR .and rs rt rd 0
  | .or rd rs rt     => encodeR .or rs rt rd 0
  | .xor rd rs rt    => encodeR .xor rs rt rd 0
  | .slt rd rs rt    => encodeR .slt rs rt rd 0
  | .j target        => encodeJ .j target
  | .ori rt rs imm   => encodeI .ori rs rt imm

end Sys2Proof
end

