-- ==== Sys2Proof/Config.lean ====
section
/-! DEFINITION. The configuration record CFG of 00_scope.md R8, less `CFG.N`, which is the size of program memory
(notes/assumptions/2.md), and the free values. It is a type over the type `E` of engine states because the system-call
hook is a function of the engine state; State holds no function, so the record holds data that names one
(notes/assumptions/4.md). -/

namespace Sys2Proof

/-- `CFG.hilo_family` (45_hilo.md R180). -/
inductive HiloFamily where
  | stub
  | full
deriving DecidableEq, Repr

/-- What a system-call hook answers (44_system.md R170): a new state with `Ok`, written as the register writes that
make it from the old one, or an unchanged state with the error `NotImplemented` (60_exceptions.md R201).
DEDUCED (notes/assumptions/5.md and 6.md): a hook writes registers only, and its error is `NotImplemented`. -/
inductive HookAnswer where
  | ok (writes : List (RegId × Word))
  | notImplemented
deriving DecidableEq, Repr, Inhabited

/-- The host's hook functions: the function numbered `n`, from engine states to answers, any function at all. It has no
body, so whatever is proved of a machine with such a hook holds for every hook. DESIGN CHOICE (notes/assumptions/4.md). -/
opaque Config.hostFunction {E : Type} (n : Nat) (e : E) : HookAnswer

/-- What a hook answers where its table is silent: always the same, or as a function of the host. -/
inductive HookRule where
  | always (a : HookAnswer)
  | host (n : Nat)
deriving DecidableEq, Repr

/-- A hook (44_system.md R170): its answer for the engine states it lists, and its rule for every other one. With an empty
table and the rule `host n` it is an arbitrary function of the engine state. DESIGN CHOICE (notes/assumptions/4.md). -/
structure SyscallHook (E : Type) where
  table     : List (E × HookAnswer)
  otherwise : HookRule
deriving DecidableEq, Repr

/-- Free value: what `pc` holds after a load whose `main` stands at an index no 32-bit register holds, which is 2^32, past
the last word of a full image (20_memory.md R67, R71). DESIGN CHOICE (notes/assumptions/29.md): the spec does not say. -/
opaque Config.unheldEntry (main : Nat) : Word

/-- Free value: what a data item holds that names a label standing `bytes` bytes past the boundary of cell `cell`. The value
of such a label "is not given by the source" (20_memory.md R66). DESIGN CHOICE (notes/assumptions/36.md). -/
opaque Config.unalignedLabel (cell bytes : Nat) : Word

/-- `CFG` (00_scope.md R8). -/
structure Config (E : Type) where
  r0Hardwired : Bool
  sel0IsSll   : Bool
  hiloFamily  : HiloFamily
  syscallHook : Option (SyscallHook E)
deriving DecidableEq, Repr

/-- The defaults of 00_scope.md R8 (notes/assumptions/3.md). -/
def Config.default {E : Type} : Config E where
  r0Hardwired := true
  sel0IsSll   := true
  hiloFamily  := .stub
  syscallHook := none

end Sys2Proof
end

