-- ==== Sys2Proof/Machine/State.lean ====
section
/-! DEFINITION. The state of the engine (10_state.md R20), its configuration beside it (00_scope.md R8), the reasons a
step can stop (60_exceptions.md R200, 70_reset_and_hazards.md R238), and reset (10_state.md R41). Plain data throughout. -/

namespace Sys2Proof.Machine

/-- Program memory (10_state.md R36, 20_memory.md R50): `size` words (this is `CFG.N`), addressed by word index. `cells`
lists the indices whose word is not zero, rising; an index below `size` that is not listed holds the zero word.
DESIGN CHOICE (notes/assumptions/12.md). -/
structure Memory where
  size  : Nat
  cells : List (Nat × Word)
deriving DecidableEq, Repr

/-- Memory with no word in it (10_state.md R41). -/
def Memory.empty : Memory := { size := 0, cells := [] }

/-- The canonical form: at most 2^32 words (20_memory.md R71), listed indices rising and below `size`, no zero word listed. -/
abbrev Memory.wf (m : Memory) : Prop :=
  m.size ≤ 2 ^ 32 ∧ m.cells.Pairwise (fun p q => p.1 < q.1) ∧ ∀ c ∈ m.cells, c.1 < m.size ∧ c.2 ≠ 0#32

/-- The state tuple of 10_state.md R20: what "the whole engine state" of 44_system.md R170 is. -/
structure EngineState where
  x      : Vector Word 32
  pc     : Word
  hi     : Word
  lo     : Word
  pmem   : Memory
  loaded : Bool
deriving DecidableEq, Repr

/-- The engine and its configuration. The configuration is "not state" (10_state.md R20) and nothing changes it; it stands
here because a step has no other argument (notes/assumptions/1.md). -/
structure State extends EngineState where
  cfg : Config EngineState
deriving DecidableEq, Repr

/-- The error results of a step (60_exceptions.md R200). A fault leaves the state as it was (R202, R203), so it carries
only the word; the class is R206's ("`UnknownInstruction` and `NotImplemented` are faults"). -/
inductive Fault where
  /-- Raised by step when there is no word to fetch or the word's selector is not in the catalog, and by SLL when
  `CFG.sel0_is_sll` is false (60_exceptions.md R201). Safe: the engine itself goes no further from here. -/
  | unknownInstruction (w : Word)
  /-- Raised by SYSCALL with no hook or by its hook's choice, by the eight HI/LO instructions under `stub`, and by DIV and
  DIVU with a zero divisor (60_exceptions.md R201). Safe: the engine itself goes no further from here. -/
  | notImplemented (w : Word)
deriving DecidableEq, Repr

/-- Situations the model gives no meaning. -/
inductive Refusal where
  /-- An instruction of the table that has no meaning yet: no arm of exec answers it. Safe. -/
  | notModelled (mnemonic : String)
  /-- Raised by step when `loaded` is false: "undefined precondition" (70_reset_and_hazards.md R238). Safe: nothing can be
  proved past it. -/
  | notLoaded
deriving DecidableEq, Repr

/-- Construction of the machine with a configuration (70_reset_and_hazards.md R230, 10_state.md R41). -/
def State.new (cfg : Config EngineState) : State where
  x      := Vector.replicate 32 0#32
  pc     := 0#32
  hi     := 0#32
  lo     := 0#32
  pmem   := Memory.empty
  loaded := false
  cfg    := cfg

/-- The machine right after reset, with the default configuration of 00_scope.md R8 (notes/assumptions/3.md). -/
def State.reset : State := State.new Config.default

end Sys2Proof.Machine
end

