-- ==== Sys2Proof/Machine/Ops.lean ====
section
/-! DEFINITION. The named operations the meanings are written over: program memory (20_memory.md R50, R55, R59),
registers (10_state.md R23, R24, R40), the program counter (R29), the error results (60_exceptions.md R200 to R203) and
the system-call hook (44_system.md R170). -/

namespace Sys2Proof.Machine

/-- The result of a step or of an instruction (60_exceptions.md R200). -/
abbrev StepResult := Host.Outcome State Fault Refusal

/-! ### Program memory -/

/-- The word listed at an index, zero when none is. -/
def lookupCell : List (Nat × Word) → Nat → Word
  | [], _ => 0#32
  | c :: rest, a => if c.1 = a then c.2 else lookupCell rest a

/-- Store a word at an index, keeping the canonical form: a zero word is not listed. -/
def storeCell : List (Nat × Word) → Nat → Word → List (Nat × Word)
  | [], a, w => if w = 0#32 then [] else [(a, w)]
  | c :: rest, a, w =>
    if a < c.1 then (if w = 0#32 then c :: rest else (a, w) :: c :: rest)
    else if a = c.1 then (if w = 0#32 then rest else (a, w) :: rest)
    else c :: storeCell rest a w

/-- `PMEM[a]`, defined for `a < CFG.N` (00_scope.md R11, 20_memory.md R50: "Indices at or above `CFG.N` hold nothing"). -/
def Memory.read (m : Memory) (a : Nat) : Option Word :=
  if a < m.size then some (lookupCell m.cells a) else none

/-- Append a word (70_reset_and_hazards.md R233 step 2). -/
def Memory.append (m : Memory) (w : Word) : Memory :=
  { size := m.size + 1, cells := storeCell m.cells m.size w }

/-- The memory whose words, in address order, are the list (70_reset_and_hazards.md R233 steps 1 and 2). -/
def Memory.ofWords (ws : List Word) : Memory := ws.foldl Memory.append Memory.empty

/-- Memory with the word `w` at index `a`, and `a` inside it. No step and no load does this: it is how the host's
`withFetchWord` stands for a load (notes/assumptions/11.md). -/
def Memory.place (m : Memory) (a : Nat) (w : Word) : Memory :=
  { size := max m.size (a + 1), cells := storeCell m.cells a w }

/-- Every word, in address order (10_state.md R39, `dump_program`). -/
def Memory.words (m : Memory) : List Word := (List.range m.size).map (lookupCell m.cells)

/-- The word at `pc`, if there is one (20_memory.md R55). -/
def State.fetch (s : State) : Option Word := s.pmem.read s.pc.toNat

/-- `instr`, the word fetched in this step (00_scope.md R11): the word at `pc`, which no instruction moves before its
error is raised (notes/assumptions/8.md). -/
def State.instrWord (s : State) : Word := s.fetch.getD 0#32

/-! ### Registers -/

/-- Whether slot `i` is the hard-wired zero (10_state.md R23, R24). -/
def State.isWiredZero (s : State) (i : Slot) : Bool := s.cfg.r0Hardwired && i == 0

/-- `x[i]` (10_state.md R23). -/
def State.readSlot (s : State) (i : Slot) : Word :=
  if s.isWiredZero i then 0#32 else s.x[i.val]

/-- `x[i] <- v` (10_state.md R24): a write to the hard-wired slot changes nothing and is not an error. -/
def State.writeSlot (s : State) (i : Slot) (v : Word) : State :=
  { s with x := if s.isWiredZero i then s.x else s.x.set i.val v i.isLt }

/-- `pc <- t` (00_scope.md R11). -/
def State.setPc (s : State) (t : Word) : State := { s with pc := t }

/-- `hi <- v` (00_scope.md R11). -/
def State.setHi (s : State) (v : Word) : State := { s with hi := v }

/-- `lo <- v` (00_scope.md R11). -/
def State.setLo (s : State) (v : Word) : State := { s with lo := v }

/-- `pc <- pc + 1` modulo 2^32 (10_state.md R29, R31). -/
def State.advance (s : State) : State := s.setPc (s.pc + 1#32)

/-- The current value of a register (10_state.md R39). -/
def State.readReg (s : State) : RegId → Word
  | .gpr i => s.readSlot i
  | .pc    => s.pc
  | .hi    => s.hi
  | .lo    => s.lo

/-- Set a register from outside an instruction (10_state.md R40; notes/assumptions/18.md). -/
def State.writeReg (s : State) (r : RegId) (v : Word) : State :=
  match r with
  | .gpr i => s.writeSlot i v
  | .pc    => s.setPc v
  | .hi    => s.setHi v
  | .lo    => s.setLo v

/-- Register writes in order. -/
def State.writeRegs (s : State) (writes : List (RegId × Word)) : State :=
  writes.foldl (fun t rv => t.writeReg rv.1 rv.2) s

/-! ### How an instruction ends

There is no trap entry and no trap return (60_exceptions.md R212, R213): on an error "the engine saves nothing, changes no
mode or mask, switches no stack and transfers control nowhere". Raising an error is returning it. -/

/-- `Ok` for an instruction that does not set `pc` itself (10_state.md R29, case (a)). -/
def okAdvance (s : State) : StepResult := .next s.advance

/-- `raise UnknownInstruction(w)` (00_scope.md R11, 60_exceptions.md R202). -/
def raiseUnknownInstruction (w : Word) : StepResult := .fault (.unknownInstruction w)

/-- `raise NotImplemented(instr)` (00_scope.md R11, 60_exceptions.md R203). -/
def raiseNotImplemented (s : State) : StepResult := .fault (.notImplemented s.instrWord)

/-! ### The system-call hook -/

/-- The answer of a rule. -/
def ruleAnswer (r : HookRule) (e : EngineState) : HookAnswer :=
  match r with
  | .always a => a
  | .host n   => Config.hostFunction n e

/-- The first answer a table lists for an engine state, or the other answer. -/
def hookLookup (e : EngineState) (otherwise : HookAnswer) : List (EngineState × HookAnswer) → HookAnswer
  | [] => otherwise
  | row :: rest => if row.1 = e then row.2 else hookLookup e otherwise rest

/-- `CFG.syscall_hook(state)` (44_system.md R170). -/
def hookAnswer (h : SyscallHook EngineState) (e : EngineState) : HookAnswer :=
  hookLookup e (ruleAnswer h.otherwise e) h.table

/-- The state a hook's `Ok` leaves: its writes, and `pc <- pc + 1` "if it returns `Ok` without setting `pc` itself"
(44_system.md R170). -/
def State.afterHook (s : State) (writes : List (RegId × Word)) : State :=
  let t := s.writeRegs writes
  if writes.any (fun rv => rv.1 == .pc) then t else t.advance

end Sys2Proof.Machine
end

