-- ==== Sys2Proof/Machine/Flags.lean ====
section
/-! DEFINITION. The engine "has no status flags, no condition codes and no predicate registers" (10_state.md R34): no
instruction writes a flag, so there is no flag computation. The one condition the catalog computes is SLT's, whose
outcome "goes to a general register, not to a condition code" (40_alu_register.md R126). -/

namespace Sys2Proof.Machine

/-- SLT's result (40_alu_register.md R126): the numbers are compared as mathematical integers, never as the sign of a
32-bit difference (R127). -/
def lessThanSigned (a b : Word) : Word := if a.toInt < b.toInt then 1#32 else 0#32

end Sys2Proof.Machine
end

