-- ==== Sys2Proof/Machine/Operands.lean ====
section
/-! DEFINITION. The operand forms of 30_encoding.md R89 to R91 and R113, and the four shapes an instruction of the catalog
has: three registers, shift by a constant, register and immediate, and the gate of the HI/LO family. -/

namespace Sys2Proof.Machine

/-- `zext_16(imm)` (00_scope.md R11, 30_encoding.md R90). -/
def zext16 (imm : BitVec 16) : Word := imm.setWidth 32

/-- `zext_26(target)` as the word index it is (30_encoding.md R113): "not shifted left by two and not combined with any
bit of `pc`". -/
def jumpIndex (target : Nat) : Word := BitVec.ofNat 32 target

/-- The template of the three-register instructions (40_alu_register.md R120). -/
def threeRegister (f : Word → Word → Word) (rd rs rt : Slot) (s : State) : StepResult :=
  okAdvance (s.writeSlot rd (f (s.readSlot rs) (s.readSlot rt)))

/-- The template of the shifts by a constant (41_shifts.md R140). -/
def shiftByConstant (f : Word → Nat → Word) (rd rt : Slot) (shamt : Nat) (s : State) : StepResult :=
  okAdvance (s.writeSlot rd (f (s.readSlot rt) shamt))

/-- The gate of the HI/LO family (45_hilo.md R180): `NotImplemented` under `stub`, the effect under `full`. -/
def whenHiloFull (s : State) (effect : StepResult) : StepResult :=
  match s.cfg.hiloFamily with
  | .stub => raiseNotImplemented s
  | .full => effect

/-- The end of an instruction that writes `hi` and `lo` (45_hilo.md R181). -/
def writeHilo (s : State) (hi lo : Word) : StepResult := okAdvance ((s.setHi hi).setLo lo)

end Sys2Proof.Machine
end

