-- ==== Sys2Proof/Machine/AluRegister.lean ====
section
/-! DEFINITION. ADD, SUB, AND, OR, XOR, SLT (40_alu_register.md). -/

namespace Sys2Proof.Machine

/-- ADD (40_alu_register.md R121): "32-bit wraparound, no overflow trap". -/
def execAdd (rd rs rt : Slot) (s : State) : StepResult := threeRegister (fun a b => a + b) rd rs rt s

/-- SUB (40_alu_register.md R122). -/
def execSub (rd rs rt : Slot) (s : State) : StepResult := threeRegister (fun a b => a - b) rd rs rt s

/-- AND (40_alu_register.md R123). -/
def execAnd (rd rs rt : Slot) (s : State) : StepResult := threeRegister (fun a b => a &&& b) rd rs rt s

/-- OR (40_alu_register.md R124). -/
def execOr (rd rs rt : Slot) (s : State) : StepResult := threeRegister (fun a b => a ||| b) rd rs rt s

/-- XOR (40_alu_register.md R125). -/
def execXor (rd rs rt : Slot) (s : State) : StepResult := threeRegister (fun a b => a ^^^ b) rd rs rt s

/-- SLT (40_alu_register.md R126). -/
def execSlt (rd rs rt : Slot) (s : State) : StepResult := threeRegister lessThanSigned rd rs rt s

end Sys2Proof.Machine
end

