-- ==== Sys2Proof/Machine/Hilo.lean ====
section
/-! DEFINITION. MFHI, MTHI, MFLO, MTLO, MULT, MULTU, DIV, DIVU (45_hilo.md). Arithmetic is exact in the integers and
narrowed at the end (R191). -/

namespace Sys2Proof.Machine

/-- `P[63:32]` (45_hilo.md R186). -/
def highHalf (p : BitVec 64) : Word := p.extractLsb' 32 32

/-- `P[31:0]` (45_hilo.md R186). -/
def lowHalf (p : BitVec 64) : Word := p.extractLsb' 0 32

/-- The 64-bit pattern of the signed product (45_hilo.md R186). -/
def signedProduct (a b : Word) : BitVec 64 := BitVec.ofInt 64 (a.toInt * b.toInt)

/-- The unsigned product (45_hilo.md R187). -/
def unsignedProduct (a b : Word) : BitVec 64 := BitVec.ofNat 64 (a.toNat * b.toNat)

/-- The signed quotient, rounded toward zero, as a 32-bit pattern (45_hilo.md R188, R193). -/
def signedQuotient (a b : Word) : Word := BitVec.ofInt 32 (a.toInt.tdiv b.toInt)

/-- `a - q * b` for the exact quotient (45_hilo.md R188). -/
def signedRemainder (a b : Word) : Word := BitVec.ofInt 32 (a.toInt - a.toInt.tdiv b.toInt * b.toInt)

/-- The unsigned quotient, rounded down (45_hilo.md R189). -/
def unsignedQuotient (a b : Word) : Word := BitVec.ofNat 32 (a.toNat / b.toNat)

/-- The unsigned remainder (45_hilo.md R189). -/
def unsignedRemainder (a b : Word) : Word := BitVec.ofNat 32 (a.toNat % b.toNat)

/-- MFHI (45_hilo.md R182). -/
def execMfhi (rd : Slot) (s : State) : StepResult := whenHiloFull s (okAdvance (s.writeSlot rd s.hi))

/-- MTHI (45_hilo.md R183). -/
def execMthi (rs : Slot) (s : State) : StepResult := whenHiloFull s (okAdvance (s.setHi (s.readSlot rs)))

/-- MFLO (45_hilo.md R184). -/
def execMflo (rd : Slot) (s : State) : StepResult := whenHiloFull s (okAdvance (s.writeSlot rd s.lo))

/-- MTLO (45_hilo.md R185). -/
def execMtlo (rs : Slot) (s : State) : StepResult := whenHiloFull s (okAdvance (s.setLo (s.readSlot rs)))

/-- MULT (45_hilo.md R186). -/
def execMult (rs rt : Slot) (s : State) : StepResult :=
  let p := signedProduct (s.readSlot rs) (s.readSlot rt)
  whenHiloFull s (writeHilo s (highHalf p) (lowHalf p))

/-- MULTU (45_hilo.md R187). -/
def execMultu (rs rt : Slot) (s : State) : StepResult :=
  let p := unsignedProduct (s.readSlot rs) (s.readSlot rt)
  whenHiloFull s (writeHilo s (highHalf p) (lowHalf p))

/-- The zero-divisor check of DIV and DIVU (45_hilo.md R192), last in the order of 60_exceptions.md R211. -/
def whenDivisorNonzero (b : Word) (s : State) (effect : StepResult) : StepResult :=
  if b = 0#32 then raiseNotImplemented s else effect

/-- DIV (45_hilo.md R188): quotient in `lo`, remainder in `hi` (R190). -/
def execDiv (rs rt : Slot) (s : State) : StepResult :=
  let a := s.readSlot rs
  let b := s.readSlot rt
  whenHiloFull s (whenDivisorNonzero b s (writeHilo s (signedRemainder a b) (signedQuotient a b)))

/-- DIVU (45_hilo.md R189): quotient in `lo`, remainder in `hi` (R190). -/
def execDivu (rs rt : Slot) (s : State) : StepResult :=
  let a := s.readSlot rs
  let b := s.readSlot rt
  whenHiloFull s (whenDivisorNonzero b s (writeHilo s (unsignedRemainder a b) (unsignedQuotient a b)))

end Sys2Proof.Machine
end

