-- ==== Sys2Proof/Machine/Immediate.lean ====
section
/-! DEFINITION. ORI (42_immediate.md), which is also what the assembler's `li` becomes (R151). -/

namespace Sys2Proof.Machine

/-- ORI (42_immediate.md R150): the destination is `rt`. -/
def execOri (rt rs : Slot) (imm : BitVec 16) (s : State) : StepResult :=
  okAdvance (s.writeSlot rt (s.readSlot rs ||| zext16 imm))

end Sys2Proof.Machine
end

