-- ==== Sys2Proof/Machine/Jump.lean ====
section
/-! DEFINITION. J (43_jump.md). -/

namespace Sys2Proof.Machine

/-- J (43_jump.md R160): sets `pc` itself, so no increment follows (10_state.md R29, case (b)); no delay slot (R161). -/
def execJ (target : Nat) (s : State) : StepResult := .next (s.setPc (jumpIndex target))

end Sys2Proof.Machine
end

