-- ==== Sys2Proof/Machine/Shifts.lean ====
section
/-! DEFINITION. SLL, SRL, SRA (41_shifts.md). -/

namespace Sys2Proof.Machine

/-- SLL (41_shifts.md R141); with `CFG.sel0_is_sll` false selector 0 has no handler (30_encoding.md R94). -/
def execSll (rd rt : Slot) (shamt : Nat) (s : State) : StepResult :=
  if s.cfg.sel0IsSll then shiftByConstant (fun a n => a <<< n) rd rt shamt s
  else raiseUnknownInstruction s.instrWord

/-- SRL (41_shifts.md R142): fills with zeros. -/
def execSrl (rd rt : Slot) (shamt : Nat) (s : State) : StepResult :=
  shiftByConstant (fun a n => a >>> n) rd rt shamt s

/-- SRA (41_shifts.md R143): fills with copies of bit 31 (90_conflicts.md C5). -/
def execSra (rd rt : Slot) (shamt : Nat) (s : State) : StepResult :=
  shiftByConstant (fun a n => a.sshiftRight n) rd rt shamt s

end Sys2Proof.Machine
end

