-- ==== Sys2Proof/Machine/System.lean ====
section
/-! DEFINITION. SYSCALL (44_system.md). -/

namespace Sys2Proof.Machine

/-- SYSCALL (44_system.md R170): "a defined hook point, not a no-op". It is not a trap (R172). -/
def execSyscall (s : State) : StepResult :=
  match s.cfg.syscallHook with
  | none => raiseNotImplemented s
  | some h =>
    match hookAnswer h s.toEngineState with
    | .ok writes      => .next (s.afterHook writes)
    | .notImplemented => raiseNotImplemented s

end Sys2Proof.Machine
end

