-- ==== Sys2Proof/Machine/Fetch.lean ====
section
/-! DEFINITION. What a step does with a loaded program: fetch, decode, dispatch (20_memory.md R55, 30_encoding.md R95,
70_reset_and_hazards.md R236). Step.lean only asks the precondition and calls it. -/

namespace Sys2Proof.Machine

/-- Decode and run the word that was fetched (70_reset_and_hazards.md R236). -/
def runWord (w : Word) (s : State) : StepResult :=
  match decodeWord w with
  | .ok i    => exec i s
  | .error _ => raiseUnknownInstruction w

/-- One step of a loaded machine. The word carried by an out-of-range fetch is the placeholder of 20_memory.md R55
(notes/assumptions/7.md). -/
def runAtPc (s : State) : StepResult :=
  match s.fetch with
  | none   => raiseUnknownInstruction 0#32
  | some w => runWord w s

/-- A machine whose next step fetches `w`: loaded, with `w` at `pc` (notes/assumptions/11.md). -/
def State.placeAtPc (s : State) (w : Word) : State :=
  { s with pmem := s.pmem.place s.pc.toNat w, loaded := true }

end Sys2Proof.Machine
end

