-- ==== Sys2Proof/Machine/Step.lean ====
section
/-! DEFINITION. One step (70_reset_and_hazards.md R236) with its precondition (R238). -/

namespace Sys2Proof.Machine

/-- The only transition of the engine (70_reset_and_hazards.md R236). With no successful load behind it a step has no
meaning and is refused (R238). -/
def step (s : State) : Host.Outcome State Fault Refusal :=
  if s.loaded then runAtPc s else .refused .notLoaded

/-- `s` with the instruction whose bits are `w` (bits at and above `nbits` zero) where the next step fetches, as a load
leaves it. -/
def State.withFetchWord (s : State) (nbits w : Nat) : State :=
  s.placeAtPc (BitVec.ofNat 32 (w % 2 ^ nbits))

end Sys2Proof.Machine
end

