-- ==== Sys2Proof/Machine/HostInterface.lean ====
section
/-! DEFINITION. What the host does between steps (70_reset_and_hazards.md R233, R240; 10_state.md R22, R26, R39 to R41):
reset, load, injection, reading a register, reading memory. None of these is a step. -/

namespace Sys2Proof.Machine

/-- The errors of the host's side (60_exceptions.md R207); no step raises them. -/
inductive AssembleError where
  | syntaxError (line : Nat)
  | missingMain
  | invalidMain
  | unknownRegister
deriving DecidableEq, Repr

/-- What the assembler hands to the engine in one load (70_reset_and_hazards.md R233): nothing, because the input could not
be read; the words it made before an error; or the whole image with the word index of `main`. -/
inductive Assembly where
  | unreadable
  | failed (words : List Word) (e : AssembleError)
  | assembled (words : List Word) (main : Nat)
deriving DecidableEq, Repr

/-- An image that fits the address space, with `main` in it or at its end (20_memory.md R67, R71). -/
def Assembly.wf : Assembly → Bool
  | .unreadable           => true
  | .failed words _       => decide (words.length ≤ 2 ^ 32)
  | .assembled words main => decide (words.length ≤ 2 ^ 32 ∧ main ≤ words.length)

/-- Step 1 of a load: memory emptied, registers zeroed, `loaded` false (70_reset_and_hazards.md R233; notes/assumptions/16.md). -/
def State.clear (s : State) : State := State.new s.cfg

/-- `pc <- word index of main` (70_reset_and_hazards.md R233 step 4). An index that 32 bits do not hold gives a free value.
DESIGN CHOICE (notes/assumptions/29.md). -/
def entryPc (main : Nat) : Word := if main < 2 ^ 32 then BitVec.ofNat 32 main else Config.unheldEntry main

/-- A load, whole (70_reset_and_hazards.md R233, R234). -/
def State.load (s : State) (a : Assembly) : State :=
  match a with
  | .unreadable           => s
  | .failed words _       => { s.clear with pmem := Memory.ofWords words }
  | .assembled words main => { s.clear with pmem := Memory.ofWords words, pc := entryPc main, loaded := true }

/-- The operations of 70_reset_and_hazards.md R240, less `step`. DESIGN CHOICE (notes/assumptions/39.md): `display_register`
takes the register itself, where the spec's takes a name. -/
inductive HostAction where
  | new
  | load (a : Assembly)
  | inject (r : RegId) (v : Word)
  | displayRegister (r : RegId)
  | dumpProgram
deriving DecidableEq, Repr

/-- What a host operation returns (70_reset_and_hazards.md R240): the values, not their rendering (00_scope.md R5). -/
inductive HostReply where
  | nothing
  | loadOk
  | loadUnreadable
  | loadError (e : AssembleError)
  | register (v : Word)
  | program (words : List Word)
deriving DecidableEq, Repr

/-- The effect of a host operation on the machine. The host cannot change the configuration (70_reset_and_hazards.md R240). -/
def State.afterHost (s : State) : HostAction → State
  | .new               => State.new s.cfg
  | .load a            => s.load a
  | .inject r v        => s.writeReg r v
  | .displayRegister _ => s
  | .dumpProgram       => s

/-- What a host operation answers. -/
def State.hostReply (s : State) : HostAction → HostReply
  | .new                      => .nothing
  | .load .unreadable         => .loadUnreadable
  | .load (.failed _ e)       => .loadError e
  | .load (.assembled _ _)    => .loadOk
  | .inject _ _               => .nothing
  | .displayRegister r        => .register (s.readReg r)
  | .dumpProgram              => .program s.pmem.words

/-- The names of the slots other than their numbers (10_state.md R26). UNVERIFIED (notes/assumptions/22.md). -/
def aliasTable : List (String × Slot) :=
  [("zero", 0), ("at", 1), ("v0", 2), ("v1", 3), ("a0", 4), ("a1", 5), ("a2", 6), ("a3", 7)] ++
  [("t0", 8), ("t1", 9), ("t2", 10), ("t3", 11), ("t4", 12), ("t5", 13), ("t6", 14), ("t7", 15)] ++
  [("s0", 16), ("s1", 17), ("s2", 18), ("s3", 19), ("s4", 20), ("s5", 21), ("s6", 22), ("s7", 23)] ++
  [("t8", 24), ("t9", 25), ("k0", 26), ("k1", 27), ("gp", 28), ("sp", 29), ("fp", 30), ("s8", 30), ("ra", 31)]

/-- The canonical names: the slot numbers (10_state.md R26). -/
def canonicalTable : List (String × Slot) :=
  [("0", 0), ("1", 1), ("2", 2), ("3", 3), ("4", 4), ("5", 5), ("6", 6), ("7", 7)] ++
  [("8", 8), ("9", 9), ("10", 10), ("11", 11), ("12", 12), ("13", 13), ("14", 14), ("15", 15)] ++
  [("16", 16), ("17", 17), ("18", 18), ("19", 19), ("20", 20), ("21", 21), ("22", 22), ("23", 23)] ++
  [("24", 24), ("25", 25), ("26", 26), ("27", 27), ("28", 28), ("29", 29), ("30", 30), ("31", 31)]

/-- `name_to_canonical` (10_state.md R22): a name, with or without `$`, to its slot; any other name fails with
`UnknownRegister`. -/
def nameToSlot (name : String) : Except AssembleError Slot :=
  match (canonicalTable ++ aliasTable).find? (fun e => e.1 == name || "$" ++ e.1 == name) with
  | some e => .ok e.2
  | none   => .error .unknownRegister

end Sys2Proof.Machine
end

