-- ==== Sys2Proof/Machine/Loader.lean ====
section
/-! DEFINITION. The assembler, which is "software around the block" (00_scope.md R5), as far as it fixes the image and the
entry index (20_memory.md R52, R57, R62 to R68; 30_encoding.md R100, R103 to R112). Its input is a list of lines already
parsed: reading text is out of scope (R5). Where the spec does not say what the assembler does, it answers
`unspecified` and no image (notes/assumptions/19.md to 21.md, 28.md, 30.md to 33.md, 35.md, 36.md). -/

namespace Sys2Proof.Machine

/-- An operand as written: a name (of a register, a variable or a label) or a signed literal (30_encoding.md R104, R107). -/
inductive Operand where
  | text (t : String)
  | number (n : Int)
deriving DecidableEq, Repr

/-- The data directives (20_memory.md R64). -/
inductive Directive where
  | align (n : Operand)
  | space (n : Operand)
  | word (v : Operand)
  | halfword (v : Operand)
  | byte (v : Operand)
  | ascii (chars : List Char)
  | asciiz (chars : List Char)
deriving DecidableEq, Repr

/-- A line that is neither blank nor a comment (30_encoding.md R104). R106 has "one or more letters" before a label's colon,
and whether digits or `_` may stand there is open (91_not_in_source.md N22). DESIGN CHOICE (notes/assumptions/37.md): the name
of a label or a constant is any string. -/
inductive Line where
  | const (name : String) (v : Operand)
  | dataMarker
  | textMarker
  | label (name : String)
  | directive (d : Directive)
  | instr (mnemonic : String) (operands : List Operand)
deriving DecidableEq, Repr

/-- What the spec leaves open about the assembler (93_implementation_defined.md U9, U12, U13; notes/assumptions/20.md). -/
inductive Unspecified where
  | alignOperand
  | unalignedItem
  | unalignedLabel
  | doesNotFit
  | duplicateName
  | wideCharacter
deriving DecidableEq, Repr

/-- Why the assembler stops at a line. -/
inductive Stop where
  | error (e : AssembleError)
  | unspecified (u : Unspecified)
deriving DecidableEq, Repr

/-- The symbol table: variables and labels, apart (30_encoding.md R107). A label off a word boundary has a place, a cell and
a number of bytes past its boundary, and no value (20_memory.md R66). -/
structure Symbols where
  vars      : List (String × Int)
  labels    : List (String × Nat)
  unaligned : List (String × Nat × Nat) := []
deriving DecidableEq, Repr

/-- The three phases (20_memory.md R62). -/
inductive Phase where
  | header
  | data
  | code
deriving DecidableEq, Repr

/-- Where a pass over the lines stands: `words` are the cells appended so far, `pending` the bytes of the partial word of
the data cursor (20_memory.md R63). -/
structure Pass where
  phase   : Phase
  words   : List Word
  pending : List Byte
  sym     : Symbols
deriving DecidableEq, Repr

/-- The start of a pass: `Header`, nothing written. -/
def Pass.start : Pass := { phase := .header, words := [], pending := [], sym := { vars := [], labels := [] } }

/-! ### Values and registers -/

/-- What an operand resolves to: a value, a label without one, or nothing. -/
inductive Resolved where
  | value (v : Int)
  | unstated (w : Word)
  | unknown
deriving DecidableEq, Repr

/-- Value resolution: "look up as a declared variable first, then as a label (producing its address), then parse as a
signed literal" (30_encoding.md R107). A label off a word boundary is found and has no value (20_memory.md R66): a free value
stands for it (notes/assumptions/36.md). -/
def Symbols.value (sym : Symbols) : Operand → Resolved
  | .number n => .value n
  | .text t =>
    match sym.vars.lookup t, sym.labels.lookup t, sym.unaligned.lookup t with
    | some v, _, _                    => .value v
    | none, some a, _                 => .value a
    | none, none, some (cell, bytes)  => .unstated (Config.unalignedLabel cell bytes)
    | none, none, none                => .unknown

/-- The value of an operand, or the syntax error of its line (30_encoding.md R107, R108). -/
def Symbols.resolve (sym : Symbols) (line : Nat) (o : Operand) : Except Stop Int :=
  match sym.value o with
  | .value v    => .ok v
  | .unstated _ => .error (.unspecified .unalignedLabel)
  | .unknown    => .error (.error (.syntaxError line))

/-- A value for an unsigned field of fewer than `bound` values; what happens to any other value is not stated
(30_encoding.md R110). -/
def Symbols.field (sym : Symbols) (line bound : Nat) (o : Operand) : Except Stop Nat := do
  let v ← sym.resolve line o
  if 0 ≤ v ∧ v < bound then .ok v.toNat else .error (.unspecified .doesNotFit)

/-- A register operand (30_encoding.md R108): an unknown name is a syntax error of its line at the level of `load`. -/
def registerOperand (line : Nat) (o : Operand) : Except Stop Slot :=
  match o with
  | .text t =>
    match nameToSlot t with
    | .ok i    => .ok i
    | .error _ => .error (.error (.syntaxError line))
  | .number n => if 0 ≤ n ∧ n < 32 then .ok (Fin.ofNat 32 n.toNat) else .error (.error (.syntaxError line))

/-! ### Instruction lines -/

/-- The mnemonics as the spec writes them (30_encoding.md R109). -/
def mnemonicTable : List (String × Opcode) :=
  [("sll", .sll), ("srl", .srl), ("sra", .sra), ("syscall", .syscall)] ++
  [("mfhi", .mfhi), ("mthi", .mthi), ("mflo", .mflo), ("mtlo", .mtlo)] ++
  [("mult", .mult), ("multu", .multu), ("div", .div), ("divu", .divu)] ++
  [("add", .add), ("sub", .sub), ("and", .and), ("or", .or), ("xor", .xor), ("slt", .slt)] ++
  [("j", .j), ("ori", .ori)]

/-- The pseudo-instruction's mnemonic (30_encoding.md R112). -/
def liMnemonic : String := "li"

/-- `mnemonic_to_opcode` (30_encoding.md R103): the selector, or 0 for an unknown mnemonic; `li` is "aliased onto the
bitwise-or-immediate opcode's encoding" (R112). -/
def mnemonicToOpcode (m : String) : Word :=
  if m = liMnemonic then Opcode.ori.sel
  else
    match mnemonicTable.lookup m with
    | some o => o.sel
    | none   => 0#32

/-- Three registers in the order written. -/
def threeOperands (line : Nat) (make : Slot → Slot → Slot → Instr) (a b c : Operand) : Except Stop Instr := do
  let a ← registerOperand line a
  let b ← registerOperand line b
  let c ← registerOperand line c
  pure (make a b c)

/-- Two registers in the order written. -/
def twoOperands (line : Nat) (make : Slot → Slot → Instr) (a b : Operand) : Except Stop Instr := do
  let a ← registerOperand line a
  let b ← registerOperand line b
  pure (make a b)

/-- Two registers and a shift count. -/
def shiftOperands (sym : Symbols) (line : Nat) (make : Slot → Slot → Nat → Instr) (a b n : Operand) :
    Except Stop Instr := do
  let a ← registerOperand line a
  let b ← registerOperand line b
  let n ← sym.field line 32 n
  pure (make a b n)

/-- ORI with its immediate. -/
def oriOperands (sym : Symbols) (line : Nat) (rt : Operand) (rs : Except Stop Slot) (imm : Operand) :
    Except Stop Instr := do
  let rt ← registerOperand line rt
  let rs ← rs
  let imm ← sym.field line 65536 imm
  pure (.ori rt rs (BitVec.ofNat 16 imm))

/-- The instruction of a catalog mnemonic with its operands in the order of 30_encoding.md R109. -/
def catalogLine (sym : Symbols) (line : Nat) (o : Opcode) (ops : List Operand) : Except Stop Instr :=
  match o, ops with
  | .sll, [rd, rt, n]   => shiftOperands sym line .sll rd rt n
  | .srl, [rd, rt, n]   => shiftOperands sym line .srl rd rt n
  | .sra, [rd, rt, n]   => shiftOperands sym line .sra rd rt n
  | .syscall, []        => .ok .syscall
  | .mfhi, [rd]         => (registerOperand line rd).map .mfhi
  | .mthi, [rs]         => (registerOperand line rs).map .mthi
  | .mflo, [rd]         => (registerOperand line rd).map .mflo
  | .mtlo, [rs]         => (registerOperand line rs).map .mtlo
  | .mult, [rs, rt]     => twoOperands line .mult rs rt
  | .multu, [rs, rt]    => twoOperands line .multu rs rt
  | .div, [rs, rt]      => twoOperands line .div rs rt
  | .divu, [rs, rt]     => twoOperands line .divu rs rt
  | .add, [rd, rs, rt]  => threeOperands line .add rd rs rt
  | .sub, [rd, rs, rt]  => threeOperands line .sub rd rs rt
  | .and, [rd, rs, rt]  => threeOperands line .and rd rs rt
  | .or, [rd, rs, rt]   => threeOperands line .or rd rs rt
  | .xor, [rd, rs, rt]  => threeOperands line .xor rd rs rt
  | .slt, [rd, rs, rt]  => threeOperands line .slt rd rs rt
  | .j, [target]        => (sym.field line (2 ^ 26) target).map .j
  | .ori, [rt, rs, imm] => oriOperands sym line rt (registerOperand line rs) imm
  | _, _                => .error (.error (.syntaxError line))

/-- The instruction of a line; `li rt, imm` is `ori rt, $zero, imm` (30_encoding.md R112). -/
def instructionLine (sym : Symbols) (line : Nat) (m : String) (ops : List Operand) : Except Stop Instr :=
  if m = liMnemonic then
    match ops with
    | [rt, imm] => oriOperands sym line rt (.ok 0) imm
    | _         => .error (.error (.syntaxError line))
  else
    match mnemonicTable.lookup m with
    | some o => catalogLine sym line o ops
    | none   => .error (.error (.syntaxError line))

/-! ### Data -/

/-- Four bytes as a cell, the first written in bits 31 to 24 (20_memory.md R52). -/
def packWord (b0 b1 b2 b3 : Byte) : Word := b0 ++ b1 ++ b2 ++ b3

/-- "flushed into 32-bit program words every 4 bytes" (20_memory.md R63): the whole words and the bytes left over. -/
def flushFull : List Byte → List Word × List Byte
  | b0 :: b1 :: b2 :: b3 :: rest =>
    let r := flushFull rest
    (packWord b0 b1 b2 b3 :: r.1, r.2)
  | tail => ([], tail)

/-- The partial word, padded with zero bytes (20_memory.md R63). -/
def padPartial : List Byte → List Word
  | b0 :: b1 :: b2 :: _ => [packWord b0 b1 b2 0#8]
  | [b0, b1]            => [packWord b0 b1 0#8 0#8]
  | [b0]                => [packWord b0 0#8 0#8 0#8]
  | []                  => []

/-- Append bytes at the data cursor. -/
def Pass.writeBytes (p : Pass) (bs : List Byte) : Pass :=
  let r := flushFull (p.pending ++ bs)
  { p with words := p.words ++ r.1, pending := r.2 }

/-- Pad the partial word and flush it. -/
def Pass.padToWord (p : Pass) : Pass := { p with words := p.words ++ padPartial p.pending, pending := [] }

/-- The low `n` bytes of a value, most significant first (20_memory.md R64). -/
def bigEndianBytes : Nat → Word → List Byte
  | 0, _     => []
  | n + 1, v => v.extractLsb' (8 * n) 8 :: bigEndianBytes n v

/-- The bytes of a string, with the `\n` escape (20_memory.md R64); none if a character is wider than a byte. The spec names
no character code. DESIGN CHOICE (notes/assumptions/35.md): the byte of a character is its code point, up to 255. -/
def charBytes : List Char → Option (List Byte)
  | '\\' :: 'n' :: rest => (charBytes rest).map (10#8 :: ·)
  | c :: rest => if c.toNat < 256 then (charBytes rest).map (BitVec.ofNat 8 c.toNat :: ·) else none
  | [] => some []

/-- The value a directive writes. A pass that only lays out (`final` is none) knows the size and writes zero. -/
def dataValue (final : Option Symbols) (line : Nat) (low high : Int) (o : Operand) : Except Stop Word :=
  match final with
  | none => .ok 0#32
  | some sym =>
    match sym.value o with
    | .value v    => if low ≤ v ∧ v < high then .ok (BitVec.ofInt 32 v) else .error (.unspecified .doesNotFit)
    | .unstated w => .ok w
    | .unknown    => .error (.error (.syntaxError line))

/-- A data item starts at a word boundary, or the spec does not say where it goes (90_conflicts.md C3, U12). -/
def Pass.item (p : Pass) (bytes : Except Stop (List Byte)) : Except Stop Pass :=
  if p.pending = [] then bytes.map p.writeBytes else .error (.unspecified .unalignedItem)

/-- The bytes of a string directive. -/
def stringBytes (chars : List Char) (tail : List Byte) : Except Stop (List Byte) :=
  match charBytes chars with
  | some bs => .ok (bs ++ tail)
  | none    => .error (.unspecified .wideCharacter)

/-- `.align n` for the operands 1 and 2, the only ones a loader should take (U9): nothing when the cursor is at a multiple of
`2 * n`, else the partial word is padded and flushed (20_memory.md R64). The boundary it is padded to is the word's, since
what is flushed is a word. DEDUCED (notes/assumptions/32.md). -/
def Pass.align (p : Pass) (n : Int) : Except Stop Pass :=
  if n = 1 ∨ n = 2 then
    if p.pending.length % (2 * n.toNat) = 0 then .ok p else .ok p.padToWord
  else .error (.unspecified .alignOperand)

/-- One directive (20_memory.md R64). A negative value is written as the low bytes of its two's complement: DESIGN CHOICE
(notes/assumptions/28.md). The operands of `.align` and `.space` fix the layout, so they are resolved from what
stands above them. -/
def Pass.directive (p : Pass) (final : Option Symbols) (line : Nat) : Directive → Except Stop Pass
  | .align n => do p.align (← p.sym.resolve line n)
  | .space n => do
    let n ← p.sym.resolve line n
    if 0 ≤ n then p.item (.ok (List.replicate n.toNat 0#8)) else .error (.unspecified .doesNotFit)
  | .word v     => p.item ((dataValue final line (-2 ^ 31) (2 ^ 32) v).map (bigEndianBytes 4))
  | .halfword v => p.item ((dataValue final line (-2 ^ 15) (2 ^ 16) v).map (bigEndianBytes 2))
  | .byte v     => p.item ((dataValue final line (-2 ^ 7) (2 ^ 8) v).map (bigEndianBytes 1))
  | .ascii cs   => p.item (stringBytes cs [])
  | .asciiz cs  => p.item (stringBytes cs [0#8])

/-! ### Lines -/

/-- Whether a label of this name stands above. -/
def Symbols.hasLabel (sym : Symbols) (name : String) : Bool :=
  (sym.labels.lookup name).isSome || (sym.unaligned.lookup name).isSome

/-- Record a label at the next cell (20_memory.md R66). It may have a variable's name, and then an operand means the
variable (30_encoding.md R107); a second label of one name is not in the spec. -/
def Pass.addLabel (p : Pass) (name : String) : Except Stop Pass :=
  if p.sym.hasLabel name then .error (.unspecified .duplicateName)
  else .ok { p with sym := { p.sym with labels := (name, p.words.length) :: p.sym.labels } }

/-- Record a variable (20_memory.md R62, 30_encoding.md R104). The spec does not say what the value of a header constant may
be. DESIGN CHOICE (notes/assumptions/30.md): a literal, or the name of a constant above it; any other name, a label's
included, is a syntax error. Nor does it bound the value. DESIGN CHOICE (notes/assumptions/38.md): any integer, which has to
fit where it is used. A second constant of one name is not in the spec. -/
def Pass.addVar (p : Pass) (line : Nat) (name : String) (v : Operand) : Except Stop Pass := do
  let v ← p.sym.resolve line v
  if (p.sym.vars.lookup name).isSome then .error (.unspecified .duplicateName)
  else .ok { p with sym := { p.sym with vars := (name, v) :: p.sym.vars } }

/-- Record the place of a label off a word boundary, which the first pass does so that the lines above find its name. -/
def Pass.addUnaligned (p : Pass) (name : String) : Except Stop Pass :=
  if p.sym.hasLabel name then .error (.unspecified .duplicateName)
  else .ok { p with sym := { p.sym with
    unaligned := (name, p.words.length, p.pending.length) :: p.sym.unaligned } }

/-- A label in the data segment. Off a word boundary the second pass stops at it: `main` is `InvalidMain` (20_memory.md
R67), and the value of any other label there is not given (R66, U12). -/
def Pass.dataLabel (p : Pass) (final : Option Symbols) (name : String) : Except Stop Pass :=
  if p.pending = [] then p.addLabel name
  else
    match final with
    | none   => p.addUnaligned name
    | some _ => .error (if name = "main" then .error .invalidMain else .unspecified .unalignedLabel)

/-- An instruction line appends exactly one cell (20_memory.md R68). A pass that only lays out does not look at it. -/
def Pass.instruction (p : Pass) (final : Option Symbols) (make : Symbols → Except Stop Instr) : Except Stop Pass :=
  match final with
  | none => .ok { p with words := p.words ++ [0#32] }
  | some sym => do
    let i ← make sym
    .ok { p with words := p.words ++ [encode i] }

/-- One line in the phase it stands in (20_memory.md R62). In `Code` "all other lines are mnemonic + operand lists", so a
line of another kind there is an instruction line that fails to encode. -/
def Pass.line (p : Pass) (final : Option Symbols) (line : Nat) (l : Line) : Except Stop Pass :=
  match p.phase, l with
  | .header, .const name v => p.addVar line name v
  | .header, .dataMarker   => .ok { p with phase := .data }
  | .data, .label name     => p.dataLabel final name
  | .data, .directive d    => p.directive final line d
  | .data, .textMarker     => .ok { p.padToWord with phase := .code }
  | .code, .label name     => p.addLabel name
  | .code, .instr m ops    => p.instruction final (fun sym => instructionLine sym line m ops)
  | .code, _               => p.instruction final (fun _ => .error (.error (.syntaxError line)))
  | _, _                   => .error (.error (.syntaxError line))

/-- The first pass: lay out every line, and leave out one that fails. The second pass stops at that line, and the labels
below it are there for the lines above it. DESIGN CHOICE (notes/assumptions/33.md). -/
def Pass.layout (line : Nat) (p : Pass) : List Line → Pass
  | [] => p
  | l :: rest =>
    match p.line none line l with
    | .ok q    => Pass.layout (line + 1) q rest
    | .error _ => Pass.layout (line + 1) p rest

/-- The second pass: line after line with the symbols of the first, stopping at the first line that fails, with no rollback
(70_reset_and_hazards.md R233, 60_exceptions.md R207). -/
def Pass.run (sym : Symbols) (line : Nat) (p : Pass) : List Line → Pass × Option Stop
  | [] => (p, none)
  | l :: rest =>
    match p.line (some sym) line l with
    | .ok q       => Pass.run sym (line + 1) q rest
    | .error stop => (p, some stop)

/-- What assembling answers: what the engine is handed, or that the spec does not say. -/
inductive AssembleOutcome where
  | done (a : Assembly)
  | unspecified (u : Unspecified)
deriving DecidableEq, Repr

/-- The end of the input: the last partial word is flushed and the label `main` must exist (20_memory.md R67). An input that
ends before `.text` ends like any other. DESIGN CHOICE (notes/assumptions/31.md): 70_reset_and_hazards.md R235 asks for
both markers, and no rule says what a load without one does. -/
def Pass.finish (p : Pass) : Assembly :=
  match p.sym.labels.lookup "main" with
  | some main => .assembled p.padToWord.words main
  | none      => .failed p.padToWord.words .missingMain

/-- The two-pass assembler (00_scope.md R2): the first pass finds the labels, the second makes the words. -/
def assemble (src : List Line) : AssembleOutcome :=
  match Pass.run (Pass.layout 0 Pass.start src).sym 0 Pass.start src with
  | (p, none)                  => .done p.finish
  | (p, some (.error e))       => .done (.failed p.words e)
  | (_, some (.unspecified u)) => .unspecified u

end Sys2Proof.Machine
end

