-- ==== Sys2Proof/Safety.lean ====
section
/-! DEFINITION. The terms the statements use: the invariant of the machine, runs of steps and of host operations, what a
safe run is, and the frames (what an instruction leaves as it was). -/

namespace Sys2Proof.Machine

/-! ### Outcomes -/

/-- The state an outcome goes on with. -/
def nextState : StepResult → Option State
  | .next s    => some s
  | .fault _   => none
  | .refused _ => none

/-- The error an outcome reports (60_exceptions.md R200). -/
def faultOf : StepResult → Option Fault
  | .next _    => none
  | .fault f   => some f
  | .refused _ => none

/-! ### Invariant and runs -/

/-- What holds of every machine the host can build: memory is in its canonical form, and a hard-wired slot 0 stores zero
(10_state.md R23, notes/assumptions/13.md). -/
abbrev State.Inv (s : State) : Prop :=
  s.pmem.wf ∧ (s.cfg.r0Hardwired = true → s.x[0] = 0#32)

/-- `t` is reached from `s` by steps that all returned `Ok`. -/
inductive Steps : State → State → Prop where
  | refl (s : State) : Steps s s
  | tail {s t u : State} (run : Steps s t) (last : step t = .next u) : Steps s u

/-- `t` is reached from `s` by `Ok` steps and host operations between them, every load of an image that fits
(70_reset_and_hazards.md R240). -/
inductive Session : State → State → Prop where
  | refl (s : State) : Session s s
  | step {s t u : State} (run : Session s t) (last : step t = .next u) : Session s u
  | host {s t : State} (run : Session s t) (act : HostAction)
      (fits : ∀ a, act = .load a → a.wf = true) : Session s (t.afterHost act)

/-- A safe run of `k` steps: every one of them returns `Ok` (60_exceptions.md R206: an error is "gone wrong", not an end). -/
def SafeFor : Nat → State → Prop
  | 0, _     => True
  | k + 1, s => ∃ t, step s = .next t ∧ SafeFor k t

/-- The end of a run. The engine defines none and leaves it to the model (60_exceptions.md R206, 70_reset_and_hazards.md
R239): here a run ends when it first reaches the chosen `pc`, by steps that all returned `Ok`. A run that meets an error
before that has not ended. DESIGN CHOICE (notes/assumptions/34.md), the one R206 gives as its example. -/
inductive RunTo (stop : Word) : State → State → Prop where
  | done {s : State} (here : s.pc = stop) : RunTo stop s s
  | step {s t u : State} (away : s.pc ≠ stop) (first : step s = .next t) (rest : RunTo stop t u) : RunTo stop s u

/-! ### Frames -/

/-- Every slot but `rd` reads as before. -/
def KeepsOtherSlots (rd : Slot) (s t : State) : Prop := ∀ i, i ≠ rd → t.readSlot i = s.readSlot i

/-- Every slot reads as before. -/
def KeepsSlots (s t : State) : Prop := ∀ i, t.readSlot i = s.readSlot i

/-- `hi` and `lo` are as before. -/
def KeepsHilo (s t : State) : Prop := t.hi = s.hi ∧ t.lo = s.lo

/-- Every word of memory reads as before, there are as many of them, and `loaded` and the configuration are as before. No
instruction stores, so this is part of every instruction's frame (20_memory.md R58, R59; 10_state.md R37). -/
def KeepsMemory (s t : State) : Prop :=
  (∀ a, t.pmem.read a = s.pmem.read a) ∧ t.pmem.size = s.pmem.size ∧ t.loaded = s.loaded ∧ t.cfg = s.cfg

/-- The frame of an instruction whose only destination is slot `rd`. -/
def OnlySlot (rd : Slot) (s t : State) : Prop := KeepsOtherSlots rd s t ∧ KeepsHilo s t ∧ KeepsMemory s t

/-- The frame of an instruction whose only destinations are `hi` and `lo`. -/
def OnlyHilo (s t : State) : Prop := KeepsSlots s t ∧ KeepsMemory s t

/-- Slot `rd` is an ordinary register of `s`: a write to it is not discarded (10_state.md R24). -/
def Writable (s : State) (rd : Slot) : Prop := ¬ (s.cfg.r0Hardwired = true ∧ rd = 0)

/-- Slot `rd` of `t` reads `v`, or reads zero when it is the hard-wired slot, where the write is discarded
(10_state.md R23, R24; 40_alu_register.md R128). -/
def SlotReads (rd : Slot) (v : Word) (s t : State) : Prop :=
  (Writable s rd → t.readSlot rd = v) ∧ (¬ Writable s rd → t.readSlot rd = 0#32)

/-- Register `r` is not the hard-wired slot of `s`. -/
def RegWritable (s : State) (r : RegId) : Prop := ¬ (s.cfg.r0Hardwired = true ∧ r = .gpr 0)

/-- Every general register, `hi`, `lo` and `pc` is zero. -/
def AllRegistersZero (s : State) : Prop :=
  (∀ i, s.readSlot i = 0#32) ∧ s.hi = 0#32 ∧ s.lo = 0#32 ∧ s.pc = 0#32

/-- Memory holds the words of a list, in address order, and nothing else. -/
def HoldsWords (m : Memory) (ws : List Word) : Prop := m.size = ws.length ∧ ∀ a, m.read a = ws[a]?

/-! ### Names -/

/-- The table of 10_state.md R26, row by row: a slot and all its names, without the `$`. -/
def slotNames : List (Slot × List String) :=
  [(0, ["0", "zero"]), (1, ["1", "at"]), (2, ["2", "v0"]), (3, ["3", "v1"]), (4, ["4", "a0"]), (5, ["5", "a1"]),
   (6, ["6", "a2"]), (7, ["7", "a3"])] ++
  [(8, ["8", "t0"]), (9, ["9", "t1"]), (10, ["10", "t2"]), (11, ["11", "t3"]), (12, ["12", "t4"]), (13, ["13", "t5"]),
   (14, ["14", "t6"]), (15, ["15", "t7"])] ++
  [(16, ["16", "s0"]), (17, ["17", "s1"]), (18, ["18", "s2"]), (19, ["19", "s3"]), (20, ["20", "s4"]), (21, ["21", "s5"]),
   (22, ["22", "s6"]), (23, ["23", "s7"])] ++
  [(24, ["24", "t8"]), (25, ["25", "t9"]), (26, ["26", "k0"]), (27, ["27", "k1"]), (28, ["28", "gp"]), (29, ["29", "sp"]),
   (30, ["30", "fp", "s8"]), (31, ["31", "ra"])]

/-! ### Words -/

/-- The bits of a word that an entry of the catalog looks at: its selector's and those of the fields it uses
(30_encoding.md R82, R92). -/
def usedMask : Opcode → Word
  | .sll     => 0xFC1FFFFF#32
  | .srl     => 0xFC1FFFFF#32
  | .sra     => 0xFC1FFFFF#32
  | .syscall => 0xFC00003F#32
  | .mfhi    => 0xFC00F83F#32
  | .mthi    => 0xFFE0003F#32
  | .mflo    => 0xFC00F83F#32
  | .mtlo    => 0xFFE0003F#32
  | .mult    => 0xFFFF003F#32
  | .multu   => 0xFFFF003F#32
  | .div     => 0xFFFF003F#32
  | .divu    => 0xFFFF003F#32
  | .add     => 0xFFFFF83F#32
  | .sub     => 0xFFFFF83F#32
  | .and     => 0xFFFFF83F#32
  | .or      => 0xFFFFF83F#32
  | .xor     => 0xFFFFF83F#32
  | .slt     => 0xFFFFF83F#32
  | .j       => 0xFFFFFFFF#32
  | .ori     => 0xFFFFFFFF#32

/-- The column `mask` of 30_encoding.md R92; the column `match` is `Opcode.sel`. -/
def rowMask : Opcode → Word
  | .j | .ori => 0xFC000000#32
  | .sll | .srl | .sra | .syscall => 0xFC00003F#32
  | .mfhi | .mthi | .mflo | .mtlo => 0xFC00003F#32
  | .mult | .multu | .div | .divu => 0xFC00003F#32
  | .add | .sub | .and | .or | .xor | .slt => 0xFC00003F#32

/-- The function codes of the catalog (30_encoding.md R95). -/
def knownFunctions : List (BitVec 6) :=
  [0x00#6, 0x02#6, 0x03#6, 0x0C#6, 0x10#6, 0x11#6, 0x12#6, 0x13#6, 0x18#6, 0x19#6, 0x1A#6, 0x1B#6,
   0x20#6, 0x22#6, 0x24#6, 0x25#6, 0x26#6, 0x2A#6]

/-- An unknown instruction, in the numbers of 30_encoding.md R95, R94. -/
def IsUnknown (cfg : Config EngineState) (w : Word) : Prop :=
  let op := w.extractLsb' 26 6
  let funct := w.extractLsb' 0 6
  (op = 0#6 ∧ (funct ∉ knownFunctions ∨ (funct = 0#6 ∧ cfg.sel0IsSll = false))) ∨
    (op ≠ 0#6 ∧ op ≠ 0x02#6 ∧ op ≠ 0x0D#6)

/-- The word selects the R-type entry of a function code (30_encoding.md R86). -/
def HasFunction (w : Word) (funct : BitVec 6) : Prop := w.extractLsb' 26 6 = 0#6 ∧ w.extractLsb' 0 6 = funct

/-- A word of the HI/LO family (45_hilo.md R180). -/
def IsHilo (w : Word) : Prop :=
  ∃ f ∈ [0x10#6, 0x11#6, 0x12#6, 0x13#6, 0x18#6, 0x19#6, 0x1A#6, 0x1B#6], HasFunction w f

/-- The causes of `NotImplemented` for the fetched word `w` (60_exceptions.md R201). -/
def IsNotImplemented (s : State) (w : Word) : Prop :=
  (HasFunction w 0x0C#6 ∧ s.cfg.syscallHook = none) ∨
  (HasFunction w 0x0C#6 ∧ ∃ h, s.cfg.syscallHook = some h ∧ hookAnswer h s.toEngineState = .notImplemented) ∨
  (IsHilo w ∧ s.cfg.hiloFamily = .stub) ∨
  ((HasFunction w 0x1A#6 ∨ HasFunction w 0x1B#6) ∧ s.cfg.hiloFamily = .full ∧ s.readSlot (rtField w) = 0#32)

end Sys2Proof.Machine
end

