-- ==== Sys2Proof/Certificates/Slice0/Obligations.lean ====
section
/-! DEFINITION. The statements for the provers. Each docstring names the rule of spec/ it formalises; where the rule is the
spec's own decision (92_eei_decisions.md) or the clause is the model's own choice, it says so. -/

open Sys2Proof Sys2Proof.Machine

/-! ### Reset, load and the host -/

/-- 70_reset_and_hazards.md R230: what construction leaves, under every configuration. -/
def Obligations.ResetIsZeroedEmptyAndUnloaded : Prop :=
  (∀ cfg, AllRegistersZero (State.new cfg) ∧ HoldsWords (State.new cfg).pmem [] ∧ (State.new cfg).loaded = false) ∧
  State.reset = State.new Config.default

/-- 10_state.md R41 with 70_reset_and_hazards.md R233 (decision D18, notes/assumptions/16.md): a load clears every register
and takes the image, and `pc` is the index of `main` when it succeeds. Of `pc` after a failed load, "left unset", nothing
is stated (notes/assumptions/17.md), nor of `pc` when `main` is at 2^32 (notes/assumptions/29.md). -/
def Obligations.LoadClearsRegistersAndTakesTheImage : Prop :=
  ∀ (s : State) (words : List Word), words.length ≤ 2 ^ 32 →
    (∀ main, main ≤ words.length →
      ∃ t, s.load (.assembled words main) = t ∧ (∀ i, t.readSlot i = 0#32) ∧ t.hi = 0#32 ∧ t.lo = 0#32 ∧
        (main < 2 ^ 32 → t.pc.toNat = main) ∧ HoldsWords t.pmem words ∧ t.loaded = true ∧ t.cfg = s.cfg) ∧
    (∀ e, ∃ t, s.load (.failed words e) = t ∧ (∀ i, t.readSlot i = 0#32) ∧ t.hi = 0#32 ∧ t.lo = 0#32 ∧
        HoldsWords t.pmem words ∧ t.loaded = false ∧ t.cfg = s.cfg)

/-- 70_reset_and_hazards.md R233 step 0 and 10_state.md R39: an unreadable input, a register read and a memory read change
nothing; the reads answer the current values. (Injecting `hi`, `lo`, `pc` is decision D17, notes/assumptions/18.md.) -/
def Obligations.HostReadsAndUnreadableLoadsChangeNothing : Prop :=
  ∀ (s : State) (r : RegId),
    s.afterHost (.load .unreadable) = s ∧ s.afterHost (.displayRegister r) = s ∧ s.afterHost .dumpProgram = s ∧
    s.hostReply (.displayRegister r) = .register (s.readReg r) ∧
    ∃ ws, s.hostReply .dumpProgram = .program ws ∧ HoldsWords s.pmem ws

/-- 10_state.md R40 (decision D17, notes/assumptions/18.md): an injection sets the register it names, unless that is the
hard-wired slot, and nothing else. -/
def Obligations.InjectionWritesOneRegister : Prop :=
  ∀ (s : State) (r : RegId) (v : Word),
    (RegWritable s r → (s.afterHost (.inject r v)).readReg r = v) ∧
    (¬ RegWritable s r → s.afterHost (.inject r v) = s) ∧
    (∀ q, q ≠ r → (s.afterHost (.inject r v)).readReg q = s.readReg q) ∧
    KeepsMemory s (s.afterHost (.inject r v))

/-- 70_reset_and_hazards.md R238 (decision D16): a step is refused exactly when no load has succeeded. -/
def Obligations.StepIsRefusedExactlyWithoutALoad : Prop :=
  ∀ s : State, (s.loaded = false → step s = .refused .notLoaded) ∧ ((∃ r, step s = .refused r) → s.loaded = false)

/-- 20_memory.md R55, R67 with 70_reset_and_hazards.md R233: the first step after a load runs the instruction at `main`. -/
def Obligations.FirstStepAfterLoadRunsMain : Prop :=
  ∀ (s : State) (words : List Word) (main : Nat) (w : Word) (i : Instr),
    words.length ≤ 2 ^ 32 → words[main]? = some w → decodeWord w = .ok i →
      step (s.load (.assembled words main)) = exec i (s.load (.assembled words main))

/-! ### The step -/

/-- 70_reset_and_hazards.md R236: a step of a loaded machine is the meaning of the instruction it decodes at `pc`. -/
def Obligations.StepRunsTheDecodedInstruction : Prop :=
  ∀ (s : State) (w : Word) (i : Instr),
    s.loaded = true → s.pmem.read s.pc.toNat = some w → decodeWord w = .ok i → step s = exec i s

/-- The model's own interface (notes/assumptions/11.md): `withFetchWord` makes the very next step run that instruction. -/
def Obligations.WithFetchWordRunsTheInstruction : Prop :=
  ∀ (s : State) (w : Nat) (i : Instr),
    s.pmem.wf → w < 2 ^ 32 → decodeTableWord 32 w = some i →
      step (s.withFetchWord 32 w) = exec i (s.withFetchWord 32 w)

/-- 20_memory.md R55: past the end of memory a step is `UnknownInstruction`. The word it carries there is a placeholder
(decision D11, notes/assumptions/7.md), so it is not stated. -/
def Obligations.StepPastTheEndIsUnknown : Prop :=
  ∀ s : State, s.loaded = true → s.pmem.size ≤ s.pc.toNat → ∃ w, step s = .fault (.unknownInstruction w)

/-- 30_encoding.md R95: a step on a fetched word is `UnknownInstruction` of that word exactly for the words R95 counts. -/
def Obligations.UnknownInstructionsAreExactlyTheUncataloguedWords : Prop :=
  ∀ (s : State) (w : Word),
    s.loaded = true → s.pmem.read s.pc.toNat = some w →
      (step s = .fault (.unknownInstruction w) ↔ IsUnknown s.cfg w)

/-- 60_exceptions.md R201 (with decisions D11 to D15): the whole list of causes. A fetched word's fault is one of the two
and carries that word, and `NotImplemented` has exactly the listed causes. -/
def Obligations.FaultsHaveExactlyTheListedCauses : Prop :=
  ∀ (s : State) (w : Word),
    s.loaded = true → s.pmem.read s.pc.toNat = some w →
      (∀ f, step s = .fault f →
        (f = .unknownInstruction w ∧ IsUnknown s.cfg w) ∨ (f = .notImplemented w ∧ IsNotImplemented s w)) ∧
      (IsNotImplemented s w → step s = .fault (.notImplemented w)) ∧
      (¬ IsUnknown s.cfg w → ¬ IsNotImplemented s w → ∃ t, step s = .next t)

/-- 10_state.md R29 (decision D10): how a step moves `pc`, by the kind of the instruction. The clause of SYSCALL is
44_system.md R170's (decision D13): `pc` advances unless the hook sets it. That a hook's `Ok` is a list of register writes is
the model's form of a hook (notes/assumptions/4.md and 5.md). -/
def Obligations.StepMovesPcByInstructionKind : Prop :=
  ∀ s t : State, step s = .next t →
    ∃ w i, s.fetch = some w ∧ decodeWord w = .ok i ∧
      (∀ target, i = .j target → t.pc.toNat = target) ∧
      (i = .syscall →
        ∃ h writes, s.cfg.syscallHook = some h ∧ hookAnswer h s.toEngineState = .ok writes ∧
          ((∀ v, (RegId.pc, v) ∉ writes) → t.pc.toNat = (s.pc.toNat + 1) % 2 ^ 32)) ∧
      ((∀ target, i ≠ .j target) → i ≠ .syscall → t.pc.toNat = (s.pc.toNat + 1) % 2 ^ 32)

/-- 20_memory.md R59: no step changes memory or its size, over any sequence of steps, and of the host's operations only a
load does (`new` makes another machine). -/
def Obligations.StepsNeverChangeProgramMemory : Prop :=
  (∀ s t : State, Steps s t → (∀ a, t.pmem.read a = s.pmem.read a) ∧ t.pmem.size = s.pmem.size) ∧
  (∀ (s : State) (act : HostAction), act ≠ .new → (∀ a, act ≠ .load a) → (s.afterHost act).pmem = s.pmem)

/-- 10_state.md R20, R37 and 70_reset_and_hazards.md R240: steps never change `loaded` or the configuration, and no host
operation changes the configuration. That the configuration stands in State is the model's choice (notes/assumptions/1.md). -/
def Obligations.ConfigurationAndLoadedAreConstant : Prop :=
  (∀ s t : State, Steps s t → t.loaded = s.loaded ∧ t.cfg = s.cfg) ∧
  (∀ (s : State) (act : HostAction), (s.afterHost act).cfg = s.cfg)

/-- 10_state.md R32, 45_hilo.md R181: which instructions can change `hi` and which `lo`, and only under `full`; a hook is
the host's (44_system.md R170). -/
def Obligations.OnlyTheHiloFamilyChangesHiAndLo : Prop :=
  ∀ s t : State, step s = .next t →
    ∃ w i, s.fetch = some w ∧ decodeWord w = .ok i ∧
      (t.hi ≠ s.hi → i = .syscall ∨ (s.cfg.hiloFamily = .full ∧
        i.opcode ∈ [Opcode.mthi, Opcode.mult, Opcode.multu, Opcode.div, Opcode.divu])) ∧
      (t.lo ≠ s.lo → i = .syscall ∨ (s.cfg.hiloFamily = .full ∧
        i.opcode ∈ [Opcode.mtlo, Opcode.mult, Opcode.multu, Opcode.div, Opcode.divu]))

/-- 45_hilo.md R180 (decision D14): under `stub`, and with no hook, `hi` and `lo` never change, over any sequence of steps. -/
def Obligations.StubbedHiloNeverChanges : Prop :=
  ∀ s t : State, s.cfg.hiloFamily = .stub → s.cfg.syscallHook = none → Steps s t → KeepsHilo s t

/-- 43_jump.md R165 (decision D6): "no register value can change where control goes". Two machines that differ in nothing
but the values of their registers move `pc` alike; with no hook, and where both steps return `Ok`. -/
def Obligations.ControlFlowIgnoresRegisterValues : Prop :=
  ∀ s t s' t' : State,
    t.pc = s.pc → t.pmem = s.pmem → t.loaded = s.loaded → t.cfg = s.cfg → s.cfg.syscallHook = none →
    step s = .next s' → step t = .next t' → t'.pc = s'.pc

/-! ### The invariant -/

/-- The machine after reset meets the invariant (notes/assumptions/12.md and 13.md). -/
def Obligations.ResetMeetsTheInvariant : Prop := State.reset.Inv

/-- Every step keeps the invariant: memory in canonical form with at most 2^32 words (20_memory.md R59, R71), the
hard-wired slot storing zero (10_state.md R23, R24). -/
def Obligations.StepKeepsTheInvariant : Prop := ∀ s t : State, s.Inv → step s = .next t → t.Inv

/-- Every session of steps and host operations (70_reset_and_hazards.md R240) keeps the invariant, loads of images that fit
the address space among them. The canonical form of memory and the stored zero are the model's choice
(notes/assumptions/12.md and 13.md), and so is the bound on images as a premise (notes/assumptions/23.md). -/
def Obligations.SessionsKeepTheInvariant : Prop := ∀ s t : State, s.Inv → Session s t → t.Inv

/-! ### The end of a run -/

/-- 60_exceptions.md R206, R205, R201, 43_jump.md R164: an error is no end and a jump to itself is no stop. With the end the
model defines (notes/assumptions/34.md), a run ends at the chosen `pc` and at one state only, having taken steps that all
returned `Ok`. Away from that `pc` no run ends from a machine without a load, past the end of memory, at an unknown word, at
one that is not implemented, or at a jump to itself; from a jump to the chosen `pc` one does. -/
def Obligations.RunsEndOnlyAtTheChosenPc : Prop :=
  (∀ (stop : Word) (s t : State), RunTo stop s t →
    t.pc = stop ∧ Steps s t ∧ ∀ u, RunTo stop s u → u = t) ∧
  (∀ (stop : Word) (s : State), s.pc ≠ stop →
    (s.loaded = false → ∀ t, ¬ RunTo stop s t) ∧
    (s.loaded = true → s.pmem.size ≤ s.pc.toNat → ∀ t, ¬ RunTo stop s t) ∧
    (∀ w, s.loaded = true → s.pmem.read s.pc.toNat = some w →
      (IsUnknown s.cfg w → ∀ t, ¬ RunTo stop s t) ∧
      (IsNotImplemented s w → ∀ t, ¬ RunTo stop s t) ∧
      (s.pc.toNat < 2 ^ 26 → w = 0x08000000#32 ||| s.pc → ∀ t, ¬ RunTo stop s t) ∧
      (w.extractLsb' 26 6 = 0x02#6 → (w.extractLsb' 0 26).toNat = stop.toNat → ∃ t, RunTo stop s t)))

/-! ### Registers and memory -/

/-- 10_state.md R23, R24 (decision D1): a read gives what was last written; the hard-wired slot reads zero in every state
and a write to it changes nothing; a write leaves every other slot alone. -/
def Obligations.SlotReadsAfterWrites : Prop :=
  ∀ (s : State) (i : Slot) (v : Word),
    SlotReads i v s (s.writeSlot i v) ∧ OnlySlot i s (s.writeSlot i v) ∧ (s.writeSlot i v).pc = s.pc ∧
    (s.cfg.r0Hardwired = true → s.readSlot 0 = 0#32 ∧ s.writeSlot 0 v = s)

/-- 20_memory.md R50, R53 and 10_state.md R39: the image loaded is the words read, and what `dump_program` gives back. -/
def Obligations.LoadedImageIsWhatIsRead : Prop :=
  ∀ ws : List Word, HoldsWords (Memory.ofWords ws) ws ∧ (Memory.ofWords ws).words = ws

/-- The model's form of memory (notes/assumptions/12.md): two memories in canonical form that read alike are equal. -/
def Obligations.CanonicalMemoriesThatReadAlikeAreEqual : Prop :=
  ∀ m n : Memory, m.wf → n.wf → (∀ a, m.read a = n.read a) → m = n

/-! ### Encoding -/

/-- 30_encoding.md R86: the selector, and that the entry the decoder answers with is the selector's. -/
def Obligations.SelectorIsPrimaryElseFunctionField : Prop :=
  (∀ w : Word, w &&& 0xFC000000#32 ≠ 0#32 → selector w = w &&& 0xFC000000#32) ∧
  (∀ w : Word, w &&& 0xFC000000#32 = 0#32 → selector w = w &&& 0x0000003F#32) ∧
  (∀ (w : Word) (i : Instr), decodeWord w = .ok i → i.opcode.sel = selector w)

/-- 30_encoding.md R92, R102 (decisions D5, D6): a word selects a row exactly when `w & mask = match`, no two rows match
one word, and a word that matches none is rejected. -/
def Obligations.RowsAreSelectedByMaskAndMatch : Prop :=
  (∀ (w : Word) (o : Opcode), w &&& rowMask o = o.sel ↔ ∃ i, decodeWord w = .ok i ∧ i.opcode = o) ∧
  (∀ (w : Word) (o p : Opcode), w &&& rowMask o = o.sel → w &&& rowMask p = p.sel → o = p) ∧
  (∀ w : Word, (∀ o, w &&& rowMask o ≠ o.sel) ↔ ∃ e, decodeWord w = .error e)

/-- 30_encoding.md R101 (with decisions D4, D5): decoding the word of a well-formed instruction gives it back, every
operand at every value its field admits. -/
def Obligations.DecodeOfEncodeIsTheInstruction : Prop :=
  ∀ i : Instr, i.wellFormed = true → decodeWord (encode i) = .ok i

/-- 30_encoding.md R88, R100 (decisions D4, D20): the words of an instruction are exactly those that agree with its encoding
on the bits it uses; every other bit is ignored, and what is decoded is well-formed. -/
def Obligations.DecodingReadsExactlyTheUsedBits : Prop :=
  ∀ (w : Word) (i : Instr),
    decodeWord w = .ok i ↔ i.wellFormed = true ∧ w &&& usedMask i.opcode = encode i

/-- 95_test_vectors.md 2.1, 2.2, 2.4: a word for each of the twenty entries, three words with unused fields set, and two
words of no entry with the selector each has. -/
def Obligations.SpecWordsDecodeAsListed : Prop :=
  decodeWord 0x00094100#32 = .ok (.sll 8 9 4) ∧ decodeWord 0x00094102#32 = .ok (.srl 8 9 4) ∧
  decodeWord 0x00094103#32 = .ok (.sra 8 9 4) ∧ decodeWord 0x0000000C#32 = .ok .syscall ∧
  decodeWord 0x00004010#32 = .ok (.mfhi 8) ∧ decodeWord 0x01200011#32 = .ok (.mthi 9) ∧
  decodeWord 0x00004012#32 = .ok (.mflo 8) ∧ decodeWord 0x01200013#32 = .ok (.mtlo 9) ∧
  decodeWord 0x012A0018#32 = .ok (.mult 9 10) ∧ decodeWord 0x012A0019#32 = .ok (.multu 9 10) ∧
  decodeWord 0x012A001A#32 = .ok (.div 9 10) ∧ decodeWord 0x012A001B#32 = .ok (.divu 9 10) ∧
  decodeWord 0x012A4020#32 = .ok (.add 8 9 10) ∧ decodeWord 0x012A4022#32 = .ok (.sub 8 9 10) ∧
  decodeWord 0x012A4024#32 = .ok (.and 8 9 10) ∧ decodeWord 0x012A4025#32 = .ok (.or 8 9 10) ∧
  decodeWord 0x012A4026#32 = .ok (.xor 8 9 10) ∧ decodeWord 0x012A402A#32 = .ok (.slt 8 9 10) ∧
  decodeWord 0x08000020#32 = .ok (.j 32) ∧ decodeWord 0x352800FF#32 = .ok (.ori 8 9 0xFF#16) ∧
  decodeWord 0x012A47E0#32 = .ok (.add 8 9 10) ∧ decodeWord 0x03E94100#32 = .ok (.sll 8 9 4) ∧
  decodeWord 0x0000004C#32 = .ok .syscall ∧
  decodeWord 0x0000000D#32 = .error (.unknownSelector 0x0D#32) ∧
  decodeWord 0x21280005#32 = .error (.unknownSelector 0x20000000#32)

/-! ### Three-register instructions -/

/-- 40_alu_register.md R121, whole: the encoding, the sum modulo 2^32 with no trap, the step of `pc`, the frame. -/
def Obligations.AddWritesTheWrappedSum : Prop :=
  ∀ (rd rs rt : Slot) (s : State),
    decodeWord (0x00000020#32 ||| BitVec.ofNat 32 rs <<< 21 ||| BitVec.ofNat 32 rt <<< 16 ||| BitVec.ofNat 32 rd <<< 11)
      = .ok (.add rd rs rt) ∧
    ∃ t v, exec (.add rd rs rt) s = .next t ∧
      v.toNat = ((s.readSlot rs).toNat + (s.readSlot rt).toNat) % 2 ^ 32 ∧
      SlotReads rd v s t ∧ OnlySlot rd s t ∧ t.pc = s.pc + 1#32

/-- 40_alu_register.md R122, R127 (decision D7): the difference modulo 2^32, never a trap. -/
def Obligations.SubWritesTheWrappedDifference : Prop :=
  ∀ (rd rs rt : Slot) (s : State),
    ∃ t v, exec (.sub rd rs rt) s = .next t ∧
      v.toNat = (2 ^ 32 + (s.readSlot rs).toNat - (s.readSlot rt).toNat) % 2 ^ 32 ∧
      SlotReads rd v s t ∧ OnlySlot rd s t ∧ t.pc = s.pc + 1#32

/-- 40_alu_register.md R123 to R125, R127 (decision D7): AND, OR and XOR act on each bit position alone. -/
def Obligations.BitwiseInstructionsActOnEachBit : Prop :=
  ∀ (rd rs rt : Slot) (s : State),
    (∃ t v, exec (.and rd rs rt) s = .next t ∧
      (∀ n, n < 32 → v.getLsbD n = ((s.readSlot rs).getLsbD n && (s.readSlot rt).getLsbD n)) ∧
      SlotReads rd v s t ∧ OnlySlot rd s t ∧ t.pc = s.pc + 1#32) ∧
    (∃ t v, exec (.or rd rs rt) s = .next t ∧
      (∀ n, n < 32 → v.getLsbD n = ((s.readSlot rs).getLsbD n || (s.readSlot rt).getLsbD n)) ∧
      SlotReads rd v s t ∧ OnlySlot rd s t ∧ t.pc = s.pc + 1#32) ∧
    (∃ t v, exec (.xor rd rs rt) s = .next t ∧
      (∀ n, n < 32 → v.getLsbD n = ((s.readSlot rs).getLsbD n != (s.readSlot rt).getLsbD n)) ∧
      SlotReads rd v s t ∧ OnlySlot rd s t ∧ t.pc = s.pc + 1#32)

/-- 40_alu_register.md R126, R127 (decision D7): the signed comparison, as 1 or 0 in all 32 bits. -/
def Obligations.SltComparesAsSignedIntegers : Prop :=
  ∀ (rd rs rt : Slot) (s : State),
    ∃ t v, exec (.slt rd rs rt) s = .next t ∧
      ((s.readSlot rs).toInt < (s.readSlot rt).toInt → v = 1#32) ∧
      ((s.readSlot rt).toInt ≤ (s.readSlot rs).toInt → v = 0#32) ∧
      SlotReads rd v s t ∧ OnlySlot rd s t ∧ t.pc = s.pc + 1#32

/-! ### Shifts -/

/-- 41_shifts.md R141 to R143 (decisions D3, D7), in their arithmetic form: SLL multiplies modulo 2^32, SRL divides the
unsigned value rounding down, SRA divides the signed value rounding toward minus infinity. SLL runs when selector 0 is SLL. -/
def Obligations.ShiftsMultiplyAndDivideByPowersOfTwo : Prop :=
  ∀ (rd rt : Slot) (shamt : Nat) (s : State), shamt < 32 →
    (s.cfg.sel0IsSll = true →
      ∃ t v, exec (.sll rd rt shamt) s = .next t ∧
        v.toNat = (s.readSlot rt).toNat * 2 ^ shamt % 2 ^ 32 ∧
        SlotReads rd v s t ∧ OnlySlot rd s t ∧ t.pc = s.pc + 1#32) ∧
    (∃ t v, exec (.srl rd rt shamt) s = .next t ∧
        v.toNat = (s.readSlot rt).toNat / 2 ^ shamt ∧
        SlotReads rd v s t ∧ OnlySlot rd s t ∧ t.pc = s.pc + 1#32) ∧
    (∃ t v, exec (.sra rd rt shamt) s = .next t ∧
        v.toInt = Int.fdiv (s.readSlot rt).toInt (2 ^ shamt) ∧
        SlotReads rd v s t ∧ OnlySlot rd s t ∧ t.pc = s.pc + 1#32)

/-- 30_encoding.md R94, 41_shifts.md R141 (decision D3): with `CFG.sel0_is_sll` false every word with selector 0 is unknown. -/
def Obligations.SelectorZeroWithoutSllIsUnknown : Prop :=
  ∀ (s : State) (w : Word),
    s.loaded = true → s.pmem.read s.pc.toNat = some w → HasFunction w 0#6 → s.cfg.sel0IsSll = false →
      step s = .fault (.unknownInstruction w)

/-- 20_memory.md R56, 41_shifts.md R141: where selector 0 is SLL, a zero cell changes nothing but `pc`, whether or not slot
0 is hard-wired. -/
def Obligations.ZeroCellOnlyAdvances : Prop :=
  ∀ s : State,
    s.loaded = true → s.pmem.read s.pc.toNat = some 0#32 → s.cfg.sel0IsSll = true →
      ∃ t, step s = .next t ∧ KeepsSlots s t ∧ KeepsHilo s t ∧ KeepsMemory s t ∧ t.pc = s.pc + 1#32

/-! ### Immediate -/

/-- 42_immediate.md R150 (decision D8): the upper half is the source's, the lower half is the source's or-ed with the
immediate; the destination is `rt`. -/
def Obligations.OriSetsTheLowHalf : Prop :=
  ∀ (rt rs : Slot) (imm : BitVec 16) (s : State),
    ∃ t v, exec (.ori rt rs imm) s = .next t ∧
      v.extractLsb' 16 16 = (s.readSlot rs).extractLsb' 16 16 ∧
      v.extractLsb' 0 16 = (s.readSlot rs).extractLsb' 0 16 ||| imm ∧
      SlotReads rt v s t ∧ OnlySlot rt s t ∧ t.pc = s.pc + 1#32

/-- 30_encoding.md R112, 42_immediate.md R151 (decision D8): `li rt, imm` is the one word `ori rt, $zero, imm`, and with
slot 0 hard-wired its step loads the zero-extended immediate. -/
def Obligations.LiLoadsTheZeroExtendedImmediate : Prop :=
  ∀ (rt : Slot) (imm : BitVec 16) (sym : Symbols) (line : Nat) (s : State),
    instructionLine sym line "li" [.number rt.val, .number imm.toNat] = .ok (.ori rt 0 imm) ∧
    (s.loaded = true → s.cfg.r0Hardwired = true →
      s.pmem.read s.pc.toNat = some (0x34000000#32 ||| BitVec.ofNat 32 rt <<< 16 ||| imm.setWidth 32) →
      ∃ t v, step s = .next t ∧ v.toNat = imm.toNat ∧ SlotReads rt v s t ∧ OnlySlot rt s t ∧ t.pc = s.pc + 1#32)

/-! ### Jump -/

/-- 43_jump.md R160 (decision D9): J sets `pc` to the word index and changes nothing else, whatever the target. -/
def Obligations.JumpSetsPcAndNothingElse : Prop :=
  ∀ (target : Nat) (s : State), target < 2 ^ 26 →
    ∃ t, exec (.j target) s = .next t ∧ t.pc.toNat = target ∧ KeepsSlots s t ∧ KeepsHilo s t ∧ KeepsMemory s t

/-- 43_jump.md R161: no delay slot. "The step after a J fetches at the target", and no other instruction's effect is seen on
the way. -/
def Obligations.StepAfterAJumpFetchesAtTheTarget : Prop :=
  ∀ (s : State) (w : Word),
    s.loaded = true → s.pmem.read s.pc.toNat = some w → w.extractLsb' 26 6 = 0x02#6 →
      ∃ t, step s = .next t ∧ KeepsSlots s t ∧ KeepsHilo s t ∧ KeepsMemory s t ∧
        t.fetch = s.pmem.read (w.extractLsb' 0 26).toNat

/-- 43_jump.md R162: a jump past the end returns `Ok`; the step after it is `UnknownInstruction`. -/
def Obligations.JumpPastTheEndFailsAtTheNextStep : Prop :=
  ∀ (target : Nat) (s : State), target < 2 ^ 26 → s.loaded = true → s.pmem.size ≤ target →
    ∃ t w, exec (.j target) s = .next t ∧ t.pc.toNat = target ∧ step t = .fault (.unknownInstruction w)

/-- 43_jump.md R164: a jump to itself is a step from the state to itself, and an infinite run, not a stop. -/
def Obligations.JumpToItselfRunsForever : Prop :=
  ∀ s : State,
    s.loaded = true → s.pc.toNat < 2 ^ 26 → s.pmem.read s.pc.toNat = some (0x08000000#32 ||| s.pc) →
      step s = .next s ∧ ∀ k, SafeFor k s

/-! ### System call -/

/-- 44_system.md R170 (decision D13): with no hook, any word with SYSCALL's selector is `NotImplemented` of that word. -/
def Obligations.SyscallWithoutHookIsNotImplemented : Prop :=
  ∀ (s : State) (w : Word),
    s.loaded = true → s.pmem.read s.pc.toNat = some w → HasFunction w 0x0C#6 → s.cfg.syscallHook = none →
      step s = .fault (.notImplemented w)

/-- 44_system.md R170 (decision D13), with the hook as notes/assumptions/4.md to 6.md have it: the last write the hook makes
to a register is what it holds, the registers it does not name are as before, `pc` advances if it does not set it, and
memory, `loaded` and the configuration are as before. -/
def Obligations.SyscallDoesWhatItsHookAnswers : Prop :=
  ∀ (s : State) (h : SyscallHook EngineState) (writes : List (RegId × Word)),
    s.cfg.syscallHook = some h → hookAnswer h s.toEngineState = .ok writes →
      ∃ t, exec .syscall s = .next t ∧ KeepsMemory s t ∧
        ((∀ v, (RegId.pc, v) ∉ writes) → t.pc = s.pc + 1#32) ∧
        (∀ r, r ≠ .pc → (∀ v, (r, v) ∉ writes) → t.readReg r = s.readReg r) ∧
        (∀ before r v after, writes = before ++ (r, v) :: after → (∀ u, (r, u) ∉ after) →
          (RegWritable s r → t.readReg r = v) ∧ (¬ RegWritable s r → t.readReg r = 0#32))

/-! ### The HI/LO family -/

/-- 45_hilo.md R180 (decision D14): under `stub` a step on any word of the family is `NotImplemented` of that word. -/
def Obligations.StubbedHiloWordsAreNotImplemented : Prop :=
  ∀ (s : State) (w : Word),
    s.loaded = true → s.pmem.read s.pc.toNat = some w → IsHilo w → s.cfg.hiloFamily = .stub →
      step s = .fault (.notImplemented w)

/-- 45_hilo.md R182, R184 (decision D14): MFHI and MFLO under `full`. -/
def Obligations.MovesFromHiAndLo : Prop :=
  ∀ (rd : Slot) (s : State), s.cfg.hiloFamily = .full →
    (∃ t, exec (.mfhi rd) s = .next t ∧ SlotReads rd s.hi s t ∧ OnlySlot rd s t ∧ t.pc = s.pc + 1#32) ∧
    (∃ t, exec (.mflo rd) s = .next t ∧ SlotReads rd s.lo s t ∧ OnlySlot rd s t ∧ t.pc = s.pc + 1#32)

/-- 45_hilo.md R183, R185 (decision D14): MTHI and MTLO under `full`; the other of the two is unchanged. -/
def Obligations.MovesToHiAndLo : Prop :=
  ∀ (rs : Slot) (s : State), s.cfg.hiloFamily = .full →
    (∃ t, exec (.mthi rs) s = .next t ∧ t.hi = s.readSlot rs ∧ t.lo = s.lo ∧ OnlyHilo s t ∧ t.pc = s.pc + 1#32) ∧
    (∃ t, exec (.mtlo rs) s = .next t ∧ t.lo = s.readSlot rs ∧ t.hi = s.hi ∧ OnlyHilo s t ∧ t.pc = s.pc + 1#32)

/-- 45_hilo.md R186, R187, R191 (decision D29): `hi ++ lo` is the exact signed product of MULT, the exact unsigned product
of MULTU. -/
def Obligations.MultipliesAreExactIn64Bits : Prop :=
  ∀ (rs rt : Slot) (s : State), s.cfg.hiloFamily = .full →
    (∃ t, exec (.mult rs rt) s = .next t ∧
      (t.hi ++ t.lo).toInt = (s.readSlot rs).toInt * (s.readSlot rt).toInt ∧ OnlyHilo s t ∧ t.pc = s.pc + 1#32) ∧
    (∃ t, exec (.multu rs rt) s = .next t ∧
      (t.hi ++ t.lo).toNat = (s.readSlot rs).toNat * (s.readSlot rt).toNat ∧ OnlyHilo s t ∧ t.pc = s.pc + 1#32)

/-- 45_hilo.md R188, R190, R191, R193 (decisions D15, D28): DIV under `full` with a nonzero divisor. Away from the one
overflow, dividend = quotient * divisor + remainder with the remainder smaller than the divisor and of the dividend's sign,
quotient in `lo`, remainder in `hi`; at the overflow the wrapped quotient and remainder zero. -/
def Obligations.DivGivesTruncatedQuotientAndRemainder : Prop :=
  ∀ (rs rt : Slot) (s : State), s.cfg.hiloFamily = .full → s.readSlot rt ≠ 0#32 →
    ∃ t, exec (.div rs rt) s = .next t ∧ OnlyHilo s t ∧ t.pc = s.pc + 1#32 ∧
      (¬ (s.readSlot rs = 0x80000000#32 ∧ s.readSlot rt = 0xFFFFFFFF#32) →
        (s.readSlot rs).toInt = t.lo.toInt * (s.readSlot rt).toInt + t.hi.toInt ∧
        t.hi.toInt.natAbs < (s.readSlot rt).toInt.natAbs ∧
        (0 ≤ (s.readSlot rs).toInt → 0 ≤ t.hi.toInt) ∧ ((s.readSlot rs).toInt ≤ 0 → t.hi.toInt ≤ 0)) ∧
      (s.readSlot rs = 0x80000000#32 ∧ s.readSlot rt = 0xFFFFFFFF#32 → t.lo = 0x80000000#32 ∧ t.hi = 0#32)

/-- 45_hilo.md R189, R190, R191 (decisions D15, D28): DIVU under `full` with a nonzero divisor. -/
def Obligations.DivuGivesQuotientAndRemainder : Prop :=
  ∀ (rs rt : Slot) (s : State), s.cfg.hiloFamily = .full → s.readSlot rt ≠ 0#32 →
    ∃ t, exec (.divu rs rt) s = .next t ∧ OnlyHilo s t ∧ t.pc = s.pc + 1#32 ∧
      (s.readSlot rs).toNat = t.lo.toNat * (s.readSlot rt).toNat + t.hi.toNat ∧
      t.hi.toNat < (s.readSlot rt).toNat

/-- 45_hilo.md R192 (decision D15): a zero divisor under `full` is `NotImplemented` of the word, with no value. -/
def Obligations.ZeroDivisorIsNotImplemented : Prop :=
  ∀ (s : State) (w : Word),
    s.loaded = true → s.pmem.read s.pc.toNat = some w → HasFunction w 0x1A#6 ∨ HasFunction w 0x1B#6 →
    s.cfg.hiloFamily = .full → s.readSlot (rtField w) = 0#32 → step s = .fault (.notImplemented w)

/-- 10_state.md R33, 45_hilo.md R181 (decision D14): the step after a MULT reads its result at once, whichever slot it is
read into. -/
def Obligations.ProductIsReadByTheNextInstruction : Prop :=
  ∀ (rs rt rd : Slot) (s : State), s.cfg.hiloFamily = .full → Writable s rd →
    ∃ t u v, exec (.mult rs rt) s = .next t ∧ exec (.mflo rd) t = .next u ∧ exec (.mfhi rd) t = .next v ∧
      (v.readSlot rd ++ u.readSlot rd).toInt = (s.readSlot rs).toInt * (s.readSlot rt).toInt ∧ u.pc = s.pc + 2#32

/-! ### The loader -/

/-- 20_memory.md R63, R64, and R65 for `n` in 1 to 64: a single `.space n` and no other data gives `ceil(n/4)` zero words.
That counts of any size are accepted is the model's choice (notes/assumptions/38.md), and so is an image of more than 2^32
words (notes/assumptions/23.md). -/
def Obligations.SpaceDirectiveGivesZeroWords : Prop :=
  ∀ n : Nat,
    assemble [.dataMarker, .directive (.space (.number n)), .textMarker, .label "main"] =
      .done (.assembled (List.replicate ((n + 3) / 4) 0#32) ((n + 3) / 4))

/-- 20_memory.md R52, R64 and 95_test_vectors.md S2: `.word v` is the cell `v`, and four bytes pack most significant first.
That a negative literal is its two's-complement pattern is the model's choice (notes/assumptions/28.md). -/
def Obligations.WordDirectiveIsBigEndian : Prop :=
  (∀ v : Int, -2 ^ 31 ≤ v → v < 2 ^ 32 →
    assemble [.dataMarker, .directive (.word (.number v)), .textMarker, .label "main"] =
      .done (.assembled [BitVec.ofInt 32 v] 1)) ∧
  (∀ b0 b1 b2 b3 : Byte,
    (packWord b0 b1 b2 b3).toNat = b0.toNat * 2 ^ 24 + b1.toNat * 2 ^ 16 + b2.toNat * 2 ^ 8 + b3.toNat)

/-- 20_memory.md R66, R67 (decision D25): what the assembler hands over as loaded has a `main` line and its index lies in
the image or at its end. -/
def Obligations.EntryIsInsideTheImage : Prop :=
  ∀ (src : List Line) (words : List Word) (main : Nat),
    assemble src = .done (.assembled words main) → Line.label "main" ∈ src ∧ main ≤ words.length

/-- 10_state.md R22, R26 (decision D21, notes/assumptions/22.md): every name of the table, as R26 writes it and behind a
`$`, resolves to its slot, and every other name fails with `UnknownRegister`. -/
def Obligations.RegisterNamesResolveToTheirSlots : Prop :=
  (∀ row ∈ slotNames, ∀ n ∈ row.2, nameToSlot n = .ok row.1 ∧ nameToSlot ("$" ++ n) = .ok row.1) ∧
  (∀ name, (∀ row ∈ slotNames, ∀ n ∈ row.2, name ≠ n ∧ name ≠ "$" ++ n) → nameToSlot name = .error .unknownRegister)

/-- 30_encoding.md R107 over parsed operands (notes/assumptions/19.md): a name is a variable first, then a label, and else
the line is a syntax error; a literal is its value; a label as the operand of `j` goes into the target unchanged. A label
off a word boundary is given no value (20_memory.md R66): that its name is found all the same, that a data item naming it
holds some word, and that any other use of its value is left unspecified, are the model's choice
(notes/assumptions/36.md). -/
def Obligations.NamesResolveToVariablesThenLabels : Prop :=
  ∀ (sym : Symbols) (line : Nat) (name : String),
    (∀ v, sym.vars.lookup name = some v → sym.resolve line (.text name) = .ok v) ∧
    (∀ a, sym.vars.lookup name = none → sym.labels.lookup name = some a →
      sym.resolve line (.text name) = .ok (a : Int) ∧
      (a < 2 ^ 26 → instructionLine sym line "j" [.text name] = .ok (.j a))) ∧
    (∀ place, sym.vars.lookup name = none → sym.labels.lookup name = none → sym.unaligned.lookup name = some place →
      sym.resolve line (.text name) = .error (.unspecified .unalignedLabel) ∧
      ∀ low high, ∃ w, dataValue (some sym) line low high (.text name) = .ok w) ∧
    (sym.vars.lookup name = none → sym.labels.lookup name = none → sym.unaligned.lookup name = none →
      sym.resolve line (.text name) = .error (.error (.syntaxError line))) ∧
    (∀ n, sym.resolve line (.number n) = .ok n)

/-- 20_memory.md R67, 60_exceptions.md R207, 95_test_vectors.md S4: `main` at byte offset 2 is `InvalidMain`, whatever lines
follow, and also when the data above it names a label below it (notes/assumptions/33.md) or `main` itself, whose value there
is not given (notes/assumptions/36.md). That negative halfwords are accepted is the model's choice (notes/assumptions/28.md). -/
def Obligations.MisalignedMainIsInvalidMain : Prop :=
  ∀ rest : List Line,
    (∀ v : Int, -2 ^ 15 ≤ v → v < 2 ^ 16 →
      assemble (.dataMarker :: .directive (.halfword (.number v)) :: .label "main" :: rest) =
        .done (.failed [] .invalidMain)) ∧
    assemble (.dataMarker :: .directive (.halfword (.text "main")) :: .label "main" :: rest) =
      .done (.failed [] .invalidMain) ∧
    (∃ w, assemble (.dataMarker :: .directive (.word (.text "main")) :: .directive (.halfword (.number 1)) ::
        .label "main" :: rest) = .done (.failed [w] .invalidMain)) ∧
    assemble (.dataMarker :: .directive (.word (.text "end")) :: .directive (.halfword (.number 1)) :: .label "main" ::
        .textMarker :: .label "end" :: rest) =
      .done (.failed [2#32] .invalidMain)
end

