-- ==== Sys2Proof/Laws/Decode.lean ====
section
/-! SUPPORT. The catalog as a table: no two entries share a selector, no two rows match one word, and the selector of a
word composed from a catalog entry. -/

namespace Sys2Proof

/-- Every entry is found under its own selector. -/
theorem Opcode.ofSel_sel (o : Opcode) : Opcode.ofSel o.sel = some o := by
  cases o <;> decide

/-- An entry found under a selector has that selector. -/
theorem Opcode.sel_of_ofSel {v : Word} {o : Opcode} (h : Opcode.ofSel v = some o) : o.sel = v := by
  simpa using List.find?_some h

/-- The decoder on a word whose selector is a catalog entry's. -/
theorem decodeWord_of_selector {w : Word} {o : Opcode} (h : selector w = o.sel) : decodeWord w = .ok (o.assemble w) := by
  simp [decodeWord, h, Opcode.ofSel_sel]

/-- What the decoder's answer says: the word's selector is the entry's, and the operands are the word's fields. -/
theorem decodeWord_eq_ok {w : Word} {i : Instr} (h : decodeWord w = .ok i) :
    ∃ o : Opcode, selector w = o.sel ∧ i = o.assemble w := by
  unfold decodeWord at h
  cases ho : Opcode.ofSel (selector w) with
  | none => simp [ho] at h
  | some o => exact ⟨o, (Opcode.sel_of_ofSel ho).symm, by simpa [ho] using h.symm⟩

/-- The selector of a word with the primary field zero. -/
theorem selector_of_primary_zero {w : Word} (h : w &&& 0xFC000000#32 = 0#32) : selector w = w &&& 0x3F#32 := by
  simp [selector, h]

/-- The selector of a word with the primary field nonzero. -/
theorem selector_of_primary {w : Word} (h : w &&& 0xFC000000#32 ≠ 0#32) : selector w = w &&& 0xFC000000#32 := by
  simp [selector, h]

/-- A register number at a bit position of the field region does not touch a mask outside it. -/
theorem atBit_and_eq_zero {v lo : Nat} {mask : Word}
    (h : ∀ n, n < 32 → mask.getLsbD n = true → n < lo ∨ v.testBit (n - lo) = false) : atBit v lo &&& mask = 0#32 := by
  apply BitVec.eq_of_getLsbD_eq
  intro n hn
  by_cases hm : mask.getLsbD n = true
  · rcases h n hn hm with h' | h'
    · simp [atBit, h']
    · simp [atBit, BitVec.getLsbD_ofNat, h']
  · simp [hm]

end Sys2Proof
end

