-- ==== Sys2Proof/Laws/Loader.lean ====
section
/-! SUPPORT. The loader's shared operations: values and registers written as numbers, the data cursor, and that a pass only
appends. -/

namespace Sys2Proof.Machine

/-- An entry that 32 bits hold is what `pc` holds. -/
theorem entryPc_toNat {main : Nat} (h : main < 2 ^ 32) : (entryPc main).toNat = main := by
  rw [entryPc, if_pos h, BitVec.toNat_ofNat, Nat.mod_eq_of_lt h]

/-- An operand whose value fits its field is the field's value. -/
theorem Symbols.field_of_resolve {sym : Symbols} {line bound n : Nat} {o : Operand} (ho : sym.resolve line o = .ok (n : Int))
    (h : n < bound) : sym.field line bound o = .ok n := by
  have hv : (0 : Int) ≤ n ∧ (n : Int) < bound := ⟨Int.natCast_nonneg n, Int.ofNat_lt.mpr h⟩
  simp [Symbols.field, ho, bind, Except.bind, hv]

/-- A number that fits its field is the field's value. -/
theorem Symbols.field_number (sym : Symbols) (line : Nat) {bound n : Nat} (h : n < bound) :
    sym.field line bound (.number n) = .ok n := Symbols.field_of_resolve rfl h

/-- A slot written as its number is that slot. -/
theorem registerOperand_number (line : Nat) (r : Slot) : registerOperand line (.number r.val) = .ok r := by
  have hr := r.isLt
  have hv : (0 : Int) ≤ r.val ∧ (r.val : Int) < 32 := by omega
  simp only [registerOperand, hv, and_self, if_true]
  exact congrArg Except.ok (Fin.ext (Nat.mod_eq_of_lt hr))

/-- Flushing four bytes or more makes a word of the first four. -/
theorem flushFull_cons (b0 b1 b2 b3 : Byte) (rest : List Byte) :
    flushFull (b0 :: b1 :: b2 :: b3 :: rest) =
      (packWord b0 b1 b2 b3 :: (flushFull rest).1, (flushFull rest).2) := rfl

/-- Zero bytes flush into zero words. -/
theorem flushFull_replicate_zero (n : Nat) :
    flushFull (List.replicate n 0#8) = (List.replicate (n / 4) 0#32, List.replicate (n % 4) 0#8) := by
  induction n using Nat.strongRecOn with
  | _ n ih =>
    match n with
    | 0 | 1 | 2 | 3 => rfl
    | k + 4 =>
      have h4 : List.replicate (k + 4) 0#8 = 0#8 :: 0#8 :: 0#8 :: 0#8 :: List.replicate k 0#8 := rfl
      rw [h4, flushFull_cons, ih k (by omega), show (k + 4) / 4 = k / 4 + 1 by omega, show (k + 4) % 4 = k % 4 by omega,
        List.replicate_succ]
      rfl

/-- Words only grow at their end when a directive writes. -/
theorem Pass.writeBytes_prefix (p : Pass) (bs : List Byte) : p.words <+: (p.writeBytes bs).words :=
  ⟨_, rfl⟩

/-- Words only grow at their end when the partial word is flushed. -/
theorem Pass.padToWord_prefix (p : Pass) : p.words <+: p.padToWord.words := ⟨_, rfl⟩

@[simp] theorem Pass.writeBytes_sym (p : Pass) (bs : List Byte) : (p.writeBytes bs).sym = p.sym := rfl
@[simp] theorem Pass.padToWord_sym (p : Pass) : p.padToWord.sym = p.sym := rfl
@[simp] theorem Pass.writeBytes_phase (p : Pass) (bs : List Byte) : (p.writeBytes bs).phase = p.phase := rfl
@[simp] theorem Pass.padToWord_phase (p : Pass) : p.padToWord.phase = p.phase := rfl

/-! ### Names: past the header a pass only adds labels under new names -/

/-- The variables are the same, and every label there was resolves as it did. -/
abbrev KeepsNames (p q : Pass) : Prop :=
  q.sym.vars = p.sym.vars ∧ ∀ name, p.sym.hasLabel name = true →
    q.sym.labels.lookup name = p.sym.labels.lookup name ∧ q.sym.unaligned.lookup name = p.sym.unaligned.lookup name

theorem KeepsNames.of_sym_eq {p q : Pass} (h : q.sym = p.sym) : KeepsNames p q := by
  rw [KeepsNames, h]; exact ⟨rfl, fun _ _ => ⟨rfl, rfl⟩⟩

theorem lookup_cons_of_ne {A : Type} {name other : String} {a : A} {l : List (String × A)} (h : name ≠ other) :
    ((other, a) :: l).lookup name = l.lookup name := by
  have hb : (name == other) = false := by simpa using h
  simp [List.lookup, hb]

theorem Pass.addLabel_keepsNames {p q : Pass} {name : String} (h : p.addLabel name = .ok q) :
    q.phase = p.phase ∧ KeepsNames p q := by
  unfold Pass.addLabel at h
  split at h
  · cases h
  · next hn =>
    cases h
    exact ⟨rfl, rfl, fun other ho => ⟨lookup_cons_of_ne fun e => hn (e ▸ ho), rfl⟩⟩

theorem Pass.addUnaligned_keepsNames {p q : Pass} {name : String} (h : p.addUnaligned name = .ok q) :
    q.phase = p.phase ∧ KeepsNames p q := by
  unfold Pass.addUnaligned at h
  split at h
  · cases h
  · next hn =>
    cases h
    exact ⟨rfl, rfl, fun other ho => ⟨rfl, lookup_cons_of_ne fun e => hn (e ▸ ho)⟩⟩

theorem Pass.dataLabel_keepsNames {p q : Pass} {final : Option Symbols} {name : String}
    (h : p.dataLabel final name = .ok q) : q.phase = p.phase ∧ KeepsNames p q := by
  unfold Pass.dataLabel at h
  split at h
  · exact Pass.addLabel_keepsNames h
  · split at h
    · exact Pass.addUnaligned_keepsNames h
    · cases h

/-- An item and an alignment change the words only. -/
theorem Pass.item_sym {p q : Pass} {bytes : Except Stop (List Byte)} (h : p.item bytes = .ok q) :
    q.phase = p.phase ∧ q.sym = p.sym := by
  unfold Pass.item at h
  split at h
  · cases bytes with
    | error _ => cases h
    | ok _ => cases h; exact ⟨rfl, rfl⟩
  · cases h

theorem Pass.align_sym {p q : Pass} {n : Int} (h : p.align n = .ok q) : q.phase = p.phase ∧ q.sym = p.sym := by
  unfold Pass.align at h
  split at h
  · split at h <;> cases h <;> exact ⟨rfl, rfl⟩
  · cases h

theorem Pass.directive_sym {p q : Pass} {final : Option Symbols} {line : Nat} {d : Directive}
    (h : p.directive final line d = .ok q) : q.phase = p.phase ∧ q.sym = p.sym := by
  cases d with
  | align n =>
    simp only [Pass.directive, bind, Except.bind] at h
    split at h
    · cases h
    · exact Pass.align_sym h
  | space n =>
    simp only [Pass.directive, bind, Except.bind] at h
    split at h
    · cases h
    · split at h
      · exact Pass.item_sym h
      · cases h
  | word v => exact Pass.item_sym h
  | halfword v => exact Pass.item_sym h
  | byte v => exact Pass.item_sym h
  | ascii cs => exact Pass.item_sym h
  | asciiz cs => exact Pass.item_sym h

theorem Pass.instruction_sym {p q : Pass} {final : Option Symbols} {make : Symbols → Except Stop Instr}
    (h : p.instruction final make = .ok q) : q.phase = p.phase ∧ q.sym = p.sym := by
  unfold Pass.instruction at h
  split at h
  · cases h; exact ⟨rfl, rfl⟩
  · simp only [bind, Except.bind] at h
    split at h <;> cases h
    exact ⟨rfl, rfl⟩

/-- What a line past the header does to the names. -/
theorem Pass.line_keepsNames {p q : Pass} {final : Option Symbols} {line : Nat} {l : Line} (hp : p.phase ≠ .header)
    (h : p.line final line l = .ok q) : q.phase ≠ .header ∧ KeepsNames p q := by
  have same : q.phase = p.phase ∧ q.sym = p.sym → q.phase ≠ .header ∧ KeepsNames p q :=
    fun e => ⟨e.1 ▸ hp, .of_sym_eq e.2⟩
  have keeps : q.phase = p.phase ∧ KeepsNames p q → q.phase ≠ .header ∧ KeepsNames p q := fun e => ⟨e.1 ▸ hp, e.2⟩
  unfold Pass.line at h
  split at h
  · exact absurd ‹p.phase = .header› hp
  · exact absurd ‹p.phase = .header› hp
  · exact keeps (Pass.dataLabel_keepsNames h)
  · exact same (Pass.directive_sym h)
  · cases h; exact ⟨nofun, .of_sym_eq rfl⟩
  · exact keeps (Pass.addLabel_keepsNames h)
  · exact same (Pass.instruction_sym h)
  · exact same (Pass.instruction_sym h)
  · cases h

/-- Past the header the first pass keeps the names it has. -/
theorem Pass.layout_keepsNames {p : Pass} (hp : p.phase ≠ .header) (line : Nat) (rest : List Line) :
    KeepsNames p (Pass.layout line p rest) := by
  induction rest generalizing line p with
  | nil => exact .of_sym_eq rfl
  | cons l rest ih =>
    rw [Pass.layout]
    split
    · next q hq =>
      obtain ⟨hq', hv, hn⟩ := Pass.line_keepsNames hp hq
      obtain ⟨gv, gn⟩ := ih hq' (line + 1)
      refine ⟨gv.trans hv, fun name ho => ?_⟩
      have hq'' : q.sym.hasLabel name = true := by simpa only [Symbols.hasLabel, (hn name ho).1, (hn name ho).2] using ho
      exact ⟨(gn name hq'').1.trans (hn name ho).1, (gn name hq'').2.trans (hn name ho).2⟩
    · exact ih hp (line + 1)

/-- An operand that named a label, when no variable has its name, resolves as it did. -/
theorem KeepsNames.value_eq {p q : Pass} (h : KeepsNames p q) {name : String} (hl : p.sym.hasLabel name = true) :
    q.sym.value (.text name) = p.sym.value (.text name) := by
  simp only [Symbols.value, h.1, (h.2 name hl).1, (h.2 name hl).2]

end Sys2Proof.Machine
end

