-- ==== Sys2Proof/Laws/Memory.lean ====
section
/-! SUPPORT. Program memory: a read after a write, and that every operation keeps the canonical form. -/

namespace Sys2Proof.Machine

/-- The keys of a list of cells rise. -/
abbrev Rising (cs : List (Nat × Word)) : Prop := cs.Pairwise (fun p q => p.1 < q.1)

theorem lookupCell_eq_zero_of_lt {cs : List (Nat × Word)} {a : Nat} (h : ∀ c ∈ cs, a < c.1) : lookupCell cs a = 0#32 := by
  induction cs with
  | nil => rfl
  | cons c rest ih =>
    have hc : c.1 ≠ a := Nat.ne_of_gt (h c (by simp))
    simp only [lookupCell, if_neg hc]
    exact ih fun d hd => h d (by simp [hd])

/-- Read after write, the same index. -/
theorem lookupCell_storeCell_same {cs : List (Nat × Word)} (hr : Rising cs) (a : Nat) (w : Word) :
    lookupCell (storeCell cs a w) a = w := by
  induction cs with
  | nil => by_cases h : w = 0#32 <;> simp [storeCell, lookupCell, h]
  | cons c rest ih =>
    obtain ⟨hlt, hrest⟩ := List.pairwise_cons.mp hr
    simp only [storeCell]
    split
    · next hac =>
      split
      · next hw =>
        rw [hw]
        refine lookupCell_eq_zero_of_lt fun d hd => ?_
        rcases List.mem_cons.mp hd with rfl | hd
        · exact hac
        · exact hac.trans (hlt d hd)
      · simp [lookupCell]
    · split
      · next hac =>
        split
        · next hw => rw [hw]; exact lookupCell_eq_zero_of_lt fun d hd => hac ▸ hlt d hd
        · simp [lookupCell]
      · next hac => simp [lookupCell, Ne.symm hac, ih hrest]

/-- Read after write, another index. -/
theorem lookupCell_storeCell_other (cs : List (Nat × Word)) {a b : Nat} (w : Word) (h : b ≠ a) :
    lookupCell (storeCell cs a w) b = lookupCell cs b := by
  induction cs with
  | nil => by_cases hw : w = 0#32 <;> simp [storeCell, lookupCell, hw, h.symm]
  | cons c rest ih =>
    simp only [storeCell]
    split
    · split
      · rfl
      · simp [lookupCell, h.symm]
    · split
      · next hac => split <;> simp [lookupCell, h.symm, ← hac]
      · simp only [lookupCell, ih]

/-- A store lists no index that was not listed, but its own. -/
theorem mem_storeCell {cs : List (Nat × Word)} {a : Nat} {w : Word} {c : Nat × Word} (h : c ∈ storeCell cs a w) :
    c ∈ cs ∨ (c = (a, w) ∧ w ≠ 0#32) := by
  induction cs with
  | nil => by_cases hw : w = 0#32 <;> simp_all [storeCell]
  | cons d rest ih =>
    simp only [storeCell] at h
    split at h
    · split at h
      · exact .inl h
      · next hw => rcases List.mem_cons.mp h with rfl | h <;> simp_all
    · split at h
      · split at h
        · exact .inl (by simp [h])
        · next hw => rcases List.mem_cons.mp h with rfl | h <;> simp_all
      · rcases List.mem_cons.mp h with rfl | h
        · simp
        · rcases ih h with h | h
          · exact .inl (by simp [h])
          · exact .inr h

/-- A store keeps the order. -/
theorem rising_storeCell {cs : List (Nat × Word)} (hr : Rising cs) (a : Nat) (w : Word) : Rising (storeCell cs a w) := by
  induction cs with
  | nil => by_cases hw : w = 0#32 <;> simp [storeCell, hw, Rising]
  | cons c rest ih =>
    obtain ⟨hlt, hrest⟩ := List.pairwise_cons.mp hr
    simp only [storeCell]
    split
    · next hac =>
      split
      · exact hr
      · refine List.pairwise_cons.mpr ⟨fun d hd => ?_, hr⟩
        rcases List.mem_cons.mp hd with rfl | hd
        · exact hac
        · exact hac.trans (hlt d hd)
    · next hca =>
      split
      · next hac =>
        split
        · exact hrest
        · exact List.pairwise_cons.mpr ⟨fun d hd => hac ▸ hlt d hd, hrest⟩
      · next hac =>
        refine List.pairwise_cons.mpr ⟨fun d hd => ?_, ih hrest⟩
        rcases mem_storeCell hd with hd | ⟨rfl, -⟩
        · exact hlt d hd
        · exact Nat.lt_of_le_of_ne (Nat.not_lt.mp hca) (Ne.symm hac)

/-- No memory at all is in canonical form. -/
theorem Memory.empty_wf : Memory.empty.wf := by decide

/-- Appending keeps the canonical form. -/
theorem Memory.append_wf {m : Memory} (h : m.wf) (hs : m.size < 2 ^ 32) (w : Word) : (m.append w).wf := by
  refine ⟨hs, rising_storeCell h.2.1 _ _, fun c hc => ?_⟩
  rcases mem_storeCell hc with hc | ⟨rfl, hw⟩
  · exact ⟨Nat.lt_succ_of_lt (h.2.2 c hc).1, (h.2.2 c hc).2⟩
  · exact ⟨Nat.lt_succ_self _, hw⟩

/-- Placing a word keeps the canonical form. -/
theorem Memory.place_wf {m : Memory} (h : m.wf) {a : Nat} (ha : a < 2 ^ 32) (w : Word) : (m.place a w).wf := by
  refine ⟨Nat.max_le.mpr ⟨h.1, ha⟩, rising_storeCell h.2.1 _ _, fun c hc => ?_⟩
  rcases mem_storeCell hc with hc | ⟨rfl, hw⟩
  · exact ⟨lt_of_lt_of_le (h.2.2 c hc).1 (Nat.le_max_left _ _), (h.2.2 c hc).2⟩
  · exact ⟨lt_of_lt_of_le (Nat.lt_succ_self _) (Nat.le_max_right _ _), hw⟩

@[simp] theorem Memory.append_size (m : Memory) (w : Word) : (m.append w).size = m.size + 1 := rfl
@[simp] theorem Memory.append_cells (m : Memory) (w : Word) :
    (m.append w).cells = storeCell m.cells m.size w := rfl
@[simp] theorem Memory.place_size (m : Memory) (a : Nat) (w : Word) : (m.place a w).size = max m.size (a + 1) := rfl
@[simp] theorem Memory.place_cells (m : Memory) (a : Nat) (w : Word) :
    (m.place a w).cells = storeCell m.cells a w := rfl

/-- Appending leaves the words that were there. -/
theorem Memory.read_append_of_lt (m : Memory) {a : Nat} (w : Word) (h : a < m.size) : (m.append w).read a = m.read a := by
  have h' : a < m.size + 1 := Nat.lt_succ_of_lt h
  simp only [Memory.read, Memory.append_size, Memory.append_cells, h, h', if_true,
    lookupCell_storeCell_other m.cells w (Nat.ne_of_lt h)]

/-- The word appended is the last. -/
theorem Memory.read_append_size {m : Memory} (h : Rising m.cells) (w : Word) : (m.append w).read m.size = some w := by
  simp [Memory.read, lookupCell_storeCell_same h]

/-- What appending a list of words does to memory, said once: the size grows by its length, the canonical form stays. -/
theorem Memory.foldl_append_wf (ws : List Word) {m : Memory} (h : m.wf) (hs : m.size + ws.length ≤ 2 ^ 32) :
    (ws.foldl Memory.append m).wf ∧ (ws.foldl Memory.append m).size = m.size + ws.length := by
  induction ws generalizing m with
  | nil => exact ⟨h, rfl⟩
  | cons w rest ih =>
    have hlen : (w :: rest).length = rest.length + 1 := rfl
    have hm : (m.append w).size = m.size + 1 := rfl
    have := ih (m := m.append w) (Memory.append_wf h (by omega) w) (by omega)
    exact ⟨this.1, by rw [List.foldl_cons, this.2]; omega⟩

/-- A loaded image is in canonical form. -/
theorem Memory.ofWords_wf {ws : List Word} (h : ws.length ≤ 2 ^ 32) : (Memory.ofWords ws).wf :=
  (Memory.foldl_append_wf ws Memory.empty_wf (by simpa [Memory.empty] using h)).1

/-- An index listed in memory lies below the size, so a read at or above it finds nothing. -/
theorem Memory.read_eq_none_iff (m : Memory) (a : Nat) : m.read a = none ↔ m.size ≤ a := by
  simp [Memory.read]

/-- The word placed is the word read. -/
theorem Memory.read_place_same {m : Memory} (h : m.wf) (a : Nat) (w : Word) : (m.place a w).read a = some w := by
  have : a < max m.size (a + 1) := lt_of_lt_of_le (Nat.lt_succ_self a) (Nat.le_max_right _ _)
  simp [Memory.read, Memory.place, lookupCell_storeCell_same h.2.1]

end Sys2Proof.Machine
end

