-- ==== Sys2Proof/Laws/State.lean ====
section
/-! SUPPORT. One lemma per field per update of State, so that no later proof unfolds a record update. -/

namespace Sys2Proof.Machine

@[simp] theorem State.writeSlot_pc (s : State) (i : Slot) (v : Word) : (s.writeSlot i v).pc = s.pc := rfl
@[simp] theorem State.writeSlot_hi (s : State) (i : Slot) (v : Word) : (s.writeSlot i v).hi = s.hi := rfl
@[simp] theorem State.writeSlot_lo (s : State) (i : Slot) (v : Word) : (s.writeSlot i v).lo = s.lo := rfl
@[simp] theorem State.writeSlot_pmem (s : State) (i : Slot) (v : Word) : (s.writeSlot i v).pmem = s.pmem := rfl
@[simp] theorem State.writeSlot_loaded (s : State) (i : Slot) (v : Word) : (s.writeSlot i v).loaded = s.loaded := rfl
@[simp] theorem State.writeSlot_cfg (s : State) (i : Slot) (v : Word) : (s.writeSlot i v).cfg = s.cfg := rfl

@[simp] theorem State.setPc_pc (s : State) (t : Word) : (s.setPc t).pc = t := rfl
@[simp] theorem State.setPc_x (s : State) (t : Word) : (s.setPc t).x = s.x := rfl
@[simp] theorem State.setPc_hi (s : State) (t : Word) : (s.setPc t).hi = s.hi := rfl
@[simp] theorem State.setPc_lo (s : State) (t : Word) : (s.setPc t).lo = s.lo := rfl
@[simp] theorem State.setPc_pmem (s : State) (t : Word) : (s.setPc t).pmem = s.pmem := rfl
@[simp] theorem State.setPc_loaded (s : State) (t : Word) : (s.setPc t).loaded = s.loaded := rfl
@[simp] theorem State.setPc_cfg (s : State) (t : Word) : (s.setPc t).cfg = s.cfg := rfl

@[simp] theorem State.setHi_hi (s : State) (v : Word) : (s.setHi v).hi = v := rfl
@[simp] theorem State.setHi_x (s : State) (v : Word) : (s.setHi v).x = s.x := rfl
@[simp] theorem State.setHi_pc (s : State) (v : Word) : (s.setHi v).pc = s.pc := rfl
@[simp] theorem State.setHi_lo (s : State) (v : Word) : (s.setHi v).lo = s.lo := rfl
@[simp] theorem State.setHi_pmem (s : State) (v : Word) : (s.setHi v).pmem = s.pmem := rfl
@[simp] theorem State.setHi_loaded (s : State) (v : Word) : (s.setHi v).loaded = s.loaded := rfl
@[simp] theorem State.setHi_cfg (s : State) (v : Word) : (s.setHi v).cfg = s.cfg := rfl

@[simp] theorem State.setLo_lo (s : State) (v : Word) : (s.setLo v).lo = v := rfl
@[simp] theorem State.setLo_x (s : State) (v : Word) : (s.setLo v).x = s.x := rfl
@[simp] theorem State.setLo_pc (s : State) (v : Word) : (s.setLo v).pc = s.pc := rfl
@[simp] theorem State.setLo_hi (s : State) (v : Word) : (s.setLo v).hi = s.hi := rfl
@[simp] theorem State.setLo_pmem (s : State) (v : Word) : (s.setLo v).pmem = s.pmem := rfl
@[simp] theorem State.setLo_loaded (s : State) (v : Word) : (s.setLo v).loaded = s.loaded := rfl
@[simp] theorem State.setLo_cfg (s : State) (v : Word) : (s.setLo v).cfg = s.cfg := rfl

@[simp] theorem State.advance_pc (s : State) : s.advance.pc = s.pc + 1#32 := rfl
@[simp] theorem State.advance_x (s : State) : s.advance.x = s.x := rfl
@[simp] theorem State.advance_hi (s : State) : s.advance.hi = s.hi := rfl
@[simp] theorem State.advance_lo (s : State) : s.advance.lo = s.lo := rfl
@[simp] theorem State.advance_pmem (s : State) : s.advance.pmem = s.pmem := rfl
@[simp] theorem State.advance_loaded (s : State) : s.advance.loaded = s.loaded := rfl
@[simp] theorem State.advance_cfg (s : State) : s.advance.cfg = s.cfg := rfl

@[simp] theorem State.placeAtPc_pc (s : State) (w : Word) : (s.placeAtPc w).pc = s.pc := rfl
@[simp] theorem State.placeAtPc_x (s : State) (w : Word) : (s.placeAtPc w).x = s.x := rfl
@[simp] theorem State.placeAtPc_hi (s : State) (w : Word) : (s.placeAtPc w).hi = s.hi := rfl
@[simp] theorem State.placeAtPc_lo (s : State) (w : Word) : (s.placeAtPc w).lo = s.lo := rfl
@[simp] theorem State.placeAtPc_loaded (s : State) (w : Word) : (s.placeAtPc w).loaded = true := rfl
@[simp] theorem State.placeAtPc_cfg (s : State) (w : Word) : (s.placeAtPc w).cfg = s.cfg := rfl
@[simp] theorem State.placeAtPc_pmem (s : State) (w : Word) :
    (s.placeAtPc w).pmem = s.pmem.place s.pc.toNat w := rfl

/-- Whether a slot is hard-wired depends on the configuration alone. -/
theorem State.isWiredZero_congr {s t : State} (h : t.cfg = s.cfg) (i : Slot) : t.isWiredZero i = s.isWiredZero i := by
  simp [State.isWiredZero, h]

/-- A slot's reading depends on the slots and the configuration alone. -/
theorem State.readSlot_congr {s t : State} (hx : t.x = s.x) (h : t.cfg = s.cfg) (i : Slot) :
    t.readSlot i = s.readSlot i := by
  simp [State.readSlot, State.isWiredZero_congr h, hx]

@[simp] theorem State.readSlot_setPc (s : State) (t : Word) (i : Slot) : (s.setPc t).readSlot i = s.readSlot i := rfl
@[simp] theorem State.readSlot_setHi (s : State) (v : Word) (i : Slot) : (s.setHi v).readSlot i = s.readSlot i := rfl
@[simp] theorem State.readSlot_setLo (s : State) (v : Word) (i : Slot) : (s.setLo v).readSlot i = s.readSlot i := rfl
@[simp] theorem State.readSlot_advance (s : State) (i : Slot) : s.advance.readSlot i = s.readSlot i := rfl

/-- Read after write, the same slot. -/
theorem State.readSlot_writeSlot_same (s : State) (i : Slot) (v : Word) :
    (s.writeSlot i v).readSlot i = if s.isWiredZero i then 0#32 else v := by
  simp only [State.readSlot, State.isWiredZero_congr (State.writeSlot_cfg s i v)]
  by_cases h : s.isWiredZero i = true
  · simp [h]
  · simp [State.writeSlot, h]

/-- Read after write, another slot. -/
theorem State.readSlot_writeSlot_other (s : State) {i k : Slot} (v : Word) (h : k ≠ i) :
    (s.writeSlot i v).readSlot k = s.readSlot k := by
  have hne : i.val ≠ k.val := fun e => h (Fin.ext e.symm)
  simp only [State.readSlot, State.isWiredZero_congr (State.writeSlot_cfg s i v)]
  by_cases hw : s.isWiredZero i = true <;> simp [State.writeSlot, hw, hne]

/-- A hard-wired slot stores what it stored. -/
theorem State.writeSlot_x_wired (s : State) {i : Slot} (v : Word) (h : s.isWiredZero i = true) :
    (s.writeSlot i v).x = s.x := by
  simp [State.writeSlot, h]

end Sys2Proof.Machine
end

