-- ==== Sys2Proof/Laws/Ops.lean ====
section
/-! SUPPORT. One lemma per shared operation that says once everything it can do. -/

namespace Sys2Proof.Machine

/-- What every instruction leaves alone: memory, `loaded`, the configuration. -/
abbrev SameSetup (s t : State) : Prop := t.pmem = s.pmem ∧ t.loaded = s.loaded ∧ t.cfg = s.cfg

@[simp] theorem okAdvance_eq_next {s t : State} : okAdvance s = .next t ↔ s.advance = t := by
  simp [okAdvance]

@[simp] theorem raiseNotImplemented_ne_next {s t : State} : raiseNotImplemented s ≠ .next t := by
  simp [raiseNotImplemented]

@[simp] theorem raiseUnknownInstruction_ne_next {w : Word} {t : State} : raiseUnknownInstruction w ≠ .next t := by
  simp [raiseUnknownInstruction]

/-- The gate goes on exactly under `full`. -/
theorem whenHiloFull_eq_next {s t : State} {r : StepResult} :
    whenHiloFull s r = .next t ↔ s.cfg.hiloFamily = .full ∧ r = .next t := by
  cases h : s.cfg.hiloFamily <;> simp [whenHiloFull, h]

/-- The divisor check goes on exactly with a nonzero divisor. -/
theorem whenDivisorNonzero_eq_next {b : Word} {s t : State} {r : StepResult} :
    whenDivisorNonzero b s r = .next t ↔ b ≠ 0#32 ∧ r = .next t := by
  by_cases h : b = 0#32 <;> simp [whenDivisorNonzero, h]

/-- A register write from outside changes registers only. -/
theorem State.writeReg_sameSetup (s : State) (r : RegId) (v : Word) : SameSetup s (s.writeReg r v) := by
  cases r <;> exact ⟨rfl, rfl, rfl⟩

/-- Register writes change registers only. -/
theorem State.writeRegs_sameSetup (writes : List (RegId × Word)) (s : State) : SameSetup s (s.writeRegs writes) := by
  induction writes generalizing s with
  | nil => exact ⟨rfl, rfl, rfl⟩
  | cons rv rest ih =>
    obtain ⟨h1, h2, h3⟩ := ih (s.writeReg rv.1 rv.2)
    obtain ⟨g1, g2, g3⟩ := s.writeReg_sameSetup rv.1 rv.2
    exact ⟨h1.trans g1, h2.trans g2, h3.trans g3⟩

/-- A hook with an empty table and the rule `host n` is the host's function `n`, any function of the engine state. -/
@[simp] theorem hookAnswer_host (n : Nat) (e : EngineState) :
    hookAnswer { table := [], otherwise := .host n } e = Config.hostFunction n e := rfl

/-- A hook's `Ok` changes registers only. -/
theorem State.afterHook_sameSetup (s : State) (writes : List (RegId × Word)) : SameSetup s (s.afterHook writes) := by
  have h := State.writeRegs_sameSetup writes s
  unfold State.afterHook
  split
  · exact h
  · exact h

/-- SYSCALL goes on exactly when its hook answers `Ok`. -/
theorem execSyscall_eq_next {s t : State} :
    execSyscall s = .next t ↔
      ∃ h writes, s.cfg.syscallHook = some h ∧ hookAnswer h s.toEngineState = .ok writes ∧ s.afterHook writes = t := by
  unfold execSyscall
  cases hs : s.cfg.syscallHook with
  | none => simp
  | some h =>
    cases ha : hookAnswer h s.toEngineState with
    | notImplemented => simp [ha]
    | ok writes => simp [ha]

/-- The states an instruction can go on to, one case per shape: a slot written, `hi` or `lo` or both written, a jump, a
hook's writes. -/
theorem exec_next_shape {i : Instr} {s t : State} (h : exec i s = .next t) :
    (∃ rd v, t = (s.writeSlot rd v).advance) ∨ (∃ hi lo, t = ((s.setHi hi).setLo lo).advance) ∨
    (∃ target, i = .j target ∧ t = s.setPc (jumpIndex target)) ∨
    (∃ writes, i = .syscall ∧ t = s.afterHook writes) := by
  cases i with
  | sll rd rt n =>
    simp only [exec, execSll, shiftByConstant] at h
    split at h
    · exact .inl ⟨rd, _, (okAdvance_eq_next.mp h).symm⟩
    · exact absurd h raiseUnknownInstruction_ne_next
  | srl rd rt n => exact .inl ⟨rd, _, (okAdvance_eq_next.mp h).symm⟩
  | sra rd rt n => exact .inl ⟨rd, _, (okAdvance_eq_next.mp h).symm⟩
  | add rd rs rt => exact .inl ⟨rd, _, (okAdvance_eq_next.mp h).symm⟩
  | sub rd rs rt => exact .inl ⟨rd, _, (okAdvance_eq_next.mp h).symm⟩
  | and rd rs rt => exact .inl ⟨rd, _, (okAdvance_eq_next.mp h).symm⟩
  | or rd rs rt => exact .inl ⟨rd, _, (okAdvance_eq_next.mp h).symm⟩
  | xor rd rs rt => exact .inl ⟨rd, _, (okAdvance_eq_next.mp h).symm⟩
  | slt rd rs rt => exact .inl ⟨rd, _, (okAdvance_eq_next.mp h).symm⟩
  | ori rt rs imm => exact .inl ⟨rt, _, (okAdvance_eq_next.mp h).symm⟩
  | mfhi rd => exact .inl ⟨rd, _, (okAdvance_eq_next.mp (whenHiloFull_eq_next.mp h).2).symm⟩
  | mflo rd => exact .inl ⟨rd, _, (okAdvance_eq_next.mp (whenHiloFull_eq_next.mp h).2).symm⟩
  | mthi rs => exact .inr (.inl ⟨s.readSlot rs, s.lo, (okAdvance_eq_next.mp (whenHiloFull_eq_next.mp h).2).symm⟩)
  | mtlo rs => exact .inr (.inl ⟨s.hi, s.readSlot rs, (okAdvance_eq_next.mp (whenHiloFull_eq_next.mp h).2).symm⟩)
  | mult rs rt => exact .inr (.inl ⟨_, _, (okAdvance_eq_next.mp (whenHiloFull_eq_next.mp h).2).symm⟩)
  | multu rs rt => exact .inr (.inl ⟨_, _, (okAdvance_eq_next.mp (whenHiloFull_eq_next.mp h).2).symm⟩)
  | div rs rt =>
    have h := (whenDivisorNonzero_eq_next.mp (whenHiloFull_eq_next.mp h).2).2
    exact .inr (.inl ⟨_, _, (okAdvance_eq_next.mp h).symm⟩)
  | divu rs rt =>
    have h := (whenDivisorNonzero_eq_next.mp (whenHiloFull_eq_next.mp h).2).2
    exact .inr (.inl ⟨_, _, (okAdvance_eq_next.mp h).symm⟩)
  | j target =>
    simp only [exec, execJ, Host.Outcome.next.injEq] at h
    exact .inr (.inr (.inl ⟨target, rfl, h.symm⟩))
  | syscall =>
    obtain ⟨-, writes, -, -, h⟩ := execSyscall_eq_next.mp h
    exact .inr (.inr (.inr ⟨writes, rfl, h.symm⟩))

/-- No instruction refuses. -/
theorem exec_ne_refused (i : Instr) (s : State) (r : Refusal) : exec i s ≠ .refused r := by
  cases i <;>
    simp only [exec, execSll, execSrl, execSra, execSyscall, execMfhi, execMthi, execMflo, execMtlo, execMult, execMultu,
      execDiv, execDivu, execAdd, execSub, execAnd, execOr, execXor, execSlt, execJ, execOri, threeRegister,
      shiftByConstant, whenHiloFull, whenDivisorNonzero, writeHilo, okAdvance, raiseNotImplemented,
      raiseUnknownInstruction] <;>
    repeat' (first | split | simp)

end Sys2Proof.Machine
end

