-- ==== Sys2Proof/Laws/PerInstr.lean ====
section
/-! SUPPORT. Statements about every instruction as syntax, one lemma per constructor (LAWS.json). The family
EncodedSelector: the word of a well-formed instruction has the selector of its catalog entry (30_encoding.md R100, R101). -/

namespace Sys2Proof

/-- A mask distributes over the fields a word is composed of. -/
theorem or_and_mask (a b m : Word) : (a ||| b) &&& m = (a &&& m) ||| (b &&& m) := by
  ext k hk
  simp [Bool.and_or_distrib_right]

/-- A register number at `rs` touches neither selector field. -/
theorem rs_and_selectorMask : ∀ r : Slot, atBit r 21 &&& 0xFC00003F#32 = 0#32 := by decide
/-- A register number at `rt` touches neither selector field. -/
theorem rt_and_selectorMask : ∀ r : Slot, atBit r 16 &&& 0xFC00003F#32 = 0#32 := by decide
/-- A register number at `rd` touches neither selector field. -/
theorem rd_and_selectorMask : ∀ r : Slot, atBit r 11 &&& 0xFC00003F#32 = 0#32 := by decide
/-- A 5-bit shift count touches neither selector field. -/
theorem shamt_and_selectorMask {n : Nat} (h : n < 32) : atBit n 6 &&& 0xFC00003F#32 = 0#32 := by
  have : ∀ k : Fin 32, atBit k 6 &&& 0xFC00003F#32 = 0#32 := by decide
  exact this ⟨n, h⟩

/-- The selector depends on the two selector fields alone (30_encoding.md R88). -/
theorem selector_eq_of_and_eq {v w : Word} (h : v &&& 0xFC00003F#32 = w &&& 0xFC00003F#32) : selector v = selector w := by
  have hp : v &&& 0xFC000000#32 = w &&& 0xFC000000#32 := by
    have := congrArg (· &&& 0xFC000000#32) h
    simpa [BitVec.and_assoc] using this
  have hf : v &&& 0x0000003F#32 = w &&& 0x0000003F#32 := by
    have := congrArg (· &&& 0x0000003F#32) h
    simpa [BitVec.and_assoc] using this
  simp [selector, hp, hf]

/-- A catalog entry's selector is its own. -/
theorem selector_sel (o : Opcode) : selector o.sel = o.sel := by cases o <;> decide

/-- The selector of a composed R-type word. -/
theorem selector_encodeR (o : Opcode) (rs rt rd : Slot) {n : Nat} (h : n < 32) :
    selector (encodeR o rs rt rd n) = o.sel := by
  rw [← selector_sel o]
  apply selector_eq_of_and_eq
  simp only [encodeR, or_and_mask, rs_and_selectorMask, rt_and_selectorMask, rd_and_selectorMask,
    shamt_and_selectorMask h, BitVec.or_zero]

/-- The selector of the composed ORI word. -/
theorem selector_encodeI (rs rt : Slot) (imm : BitVec 16) : selector (encodeI .ori rs rt imm) = Opcode.ori.sel := by
  have h1 : ∀ r : Slot, atBit r 21 &&& 0xFC000000#32 = 0#32 := by decide
  have h2 : ∀ r : Slot, atBit r 16 &&& 0xFC000000#32 = 0#32 := by decide
  have h3 : imm.setWidth 32 &&& 0xFC000000#32 = 0#32 := by
    have low : ∀ k : Fin 16, (0xFC000000#32).getLsbD k = false := by decide
    apply BitVec.eq_of_getLsbD_eq
    intro k _
    by_cases hk : k < 16
    · simp [low ⟨k, hk⟩]
    · simp [BitVec.getLsbD_of_ge imm k (Nat.not_lt.mp hk)]
  have hp : encodeI .ori rs rt imm &&& 0xFC000000#32 = Opcode.ori.sel := by
    simp only [encodeI, or_and_mask, h1, h2, h3, BitVec.or_zero]
    rfl
  rw [selector_of_primary (by rw [hp]; decide), hp]

/-- The selector of the composed J word. -/
theorem selector_encodeJ {target : Nat} (h : target < 2 ^ 26) : selector (encodeJ .j target) = Opcode.j.sel := by
  have h1 : atBit target 0 &&& 0xFC000000#32 = 0#32 := by
    apply atBit_and_eq_zero
    intro n hn hm
    refine .inr (Nat.testBit_lt_two_pow (lt_of_lt_of_le h ?_))
    have : ∀ k : Fin 32, (0xFC000000#32).getLsbD k = true → 26 ≤ k.val := by decide
    exact Nat.pow_le_pow_right (by omega) (this ⟨n, hn⟩ hm)
  have hp : encodeJ .j target &&& 0xFC000000#32 = Opcode.j.sel := by
    simp only [encodeJ, or_and_mask, h1, BitVec.or_zero]
    rfl
  rw [selector_of_primary (by rw [hp]; decide), hp]

end Sys2Proof

namespace Sys2Proof.Laws.EncodedSelector

/-- The word of a well-formed instruction selects its catalog entry. -/
def Statement (i : Instr) : Prop := i.wellFormed = true → selector (encode i) = i.opcode.sel

theorem sll (rd rt : Slot) (shamt : Nat) : Statement (.sll rd rt shamt) :=
  fun h => selector_encodeR .sll 0 rt rd (of_decide_eq_true h)
theorem srl (rd rt : Slot) (shamt : Nat) : Statement (.srl rd rt shamt) :=
  fun h => selector_encodeR .srl 0 rt rd (of_decide_eq_true h)
theorem sra (rd rt : Slot) (shamt : Nat) : Statement (.sra rd rt shamt) :=
  fun h => selector_encodeR .sra 0 rt rd (of_decide_eq_true h)
theorem syscall : Statement .syscall := fun _ => selector_encodeR .syscall 0 0 0 (by decide)
theorem mfhi (rd : Slot) : Statement (.mfhi rd) := fun _ => selector_encodeR .mfhi 0 0 rd (by decide)
theorem mthi (rs : Slot) : Statement (.mthi rs) := fun _ => selector_encodeR .mthi rs 0 0 (by decide)
theorem mflo (rd : Slot) : Statement (.mflo rd) := fun _ => selector_encodeR .mflo 0 0 rd (by decide)
theorem mtlo (rs : Slot) : Statement (.mtlo rs) := fun _ => selector_encodeR .mtlo rs 0 0 (by decide)
theorem mult (rs rt : Slot) : Statement (.mult rs rt) := fun _ => selector_encodeR .mult rs rt 0 (by decide)
theorem multu (rs rt : Slot) : Statement (.multu rs rt) := fun _ => selector_encodeR .multu rs rt 0 (by decide)
theorem div (rs rt : Slot) : Statement (.div rs rt) := fun _ => selector_encodeR .div rs rt 0 (by decide)
theorem divu (rs rt : Slot) : Statement (.divu rs rt) := fun _ => selector_encodeR .divu rs rt 0 (by decide)
theorem add (rd rs rt : Slot) : Statement (.add rd rs rt) := fun _ => selector_encodeR .add rs rt rd (by decide)
theorem sub (rd rs rt : Slot) : Statement (.sub rd rs rt) := fun _ => selector_encodeR .sub rs rt rd (by decide)
theorem and (rd rs rt : Slot) : Statement (.and rd rs rt) := fun _ => selector_encodeR .and rs rt rd (by decide)
theorem or (rd rs rt : Slot) : Statement (.or rd rs rt) := fun _ => selector_encodeR .or rs rt rd (by decide)
theorem xor (rd rs rt : Slot) : Statement (.xor rd rs rt) := fun _ => selector_encodeR .xor rs rt rd (by decide)
theorem slt (rd rs rt : Slot) : Statement (.slt rd rs rt) := fun _ => selector_encodeR .slt rs rt rd (by decide)
theorem j (target : Nat) : Statement (.j target) := fun h => selector_encodeJ (of_decide_eq_true h)
theorem ori (rt rs : Slot) (imm : BitVec 16) : Statement (.ori rt rs imm) := fun _ => selector_encodeI rs rt imm

end Sys2Proof.Laws.EncodedSelector
end

