-- ==== Sys2Proof/Laws/Runs.lean ====
section
/-! SUPPORT. What a run to a chosen `pc` can be, said once. -/

namespace Sys2Proof.Machine

/-- A run to `stop` has ended, or it takes an `Ok` step and goes on. -/
theorem runTo_iff {stop : Word} {s t : State} :
    RunTo stop s t ↔ (s.pc = stop ∧ t = s) ∨ (s.pc ≠ stop ∧ ∃ u, step s = .next u ∧ RunTo stop u t) := by
  constructor
  · intro h
    cases h with
    | done here => exact .inl ⟨here, rfl⟩
    | step away first rest => exact .inr ⟨away, _, first, rest⟩
  · rintro (⟨here, rfl⟩ | ⟨away, u, first, rest⟩)
    · exact .done here
    · exact .step away first rest

/-- Away from `stop`, a run to it needs an `Ok` step. -/
theorem exists_next_of_runTo {stop : Word} {s t : State} (h : RunTo stop s t) (away : s.pc ≠ stop) :
    ∃ u, step s = .next u := by
  rcases runTo_iff.mp h with ⟨here, _⟩ | ⟨_, u, first, _⟩
  · exact absurd here away
  · exact ⟨u, first⟩

/-- Steps before steps. -/
theorem steps_of_head {s t u : State} (first : step s = .next t) (rest : Steps t u) : Steps s u := by
  induction rest with
  | refl => exact (Steps.refl s).tail first
  | tail _ last ih => exact ih.tail last

/-- A machine whose step is a step to itself never reaches another `pc`. -/
theorem not_runTo_of_step_self {stop : Word} {s : State} (self : step s = .next s) (away : s.pc ≠ stop) (t : State) :
    ¬ RunTo stop s t := by
  intro h
  generalize hu : s = u at h
  induction h with
  | done here => exact away (hu ▸ here)
  | step _ first _ ih =>
    rw [← hu, self] at first
    cases first
    exact ih rfl

end Sys2Proof.Machine
end

