-- ==== Sys2Proof/Laws/Step.lean ====
section
/-! SUPPORT. What a step can do, said once. -/

namespace Sys2Proof.Machine

/-- A step goes on exactly when a loaded machine fetches a word, decodes it and the instruction goes on. -/
theorem step_eq_next {s t : State} :
    step s = .next t ↔
      s.loaded = true ∧ ∃ w i, s.fetch = some w ∧ decodeWord w = .ok i ∧ exec i s = .next t := by
  unfold step runAtPc runWord
  cases hl : s.loaded <;> cases hf : s.fetch with
  | none => simp
  | some w => cases hd : decodeWord w <;> simp [hd]

/-- A loaded machine's step with nothing to fetch. -/
theorem step_of_fetch_none {s : State} (hl : s.loaded = true) (hf : s.fetch = none) :
    step s = raiseUnknownInstruction 0#32 := by
  simp [step, runAtPc, hl, hf]

/-- A loaded machine's step on a word outside the catalog. -/
theorem step_of_decode_error {s : State} {w : Word} {e : DecodeReject} (hl : s.loaded = true)
    (hf : s.fetch = some w) (hd : decodeWord w = .error e) : step s = raiseUnknownInstruction w := by
  simp [step, runAtPc, runWord, hl, hf, hd]

/-- The word an error carries is the fetched word. -/
theorem State.instrWord_of_fetch {s : State} {w : Word} (hf : s.fetch = some w) : s.instrWord = w := by
  simp [State.instrWord, hf]

end Sys2Proof.Machine
end

