-- ==== Sys2Proof/Tests/Slice0.lean ====
section
/-! SUPPORT. Tests and witnesses. Expected results are those of 95_test_vectors.md (its part and row is named), or worked
out by hand from the rule named; the witnesses meet the hypotheses of the statements whose name they carry. -/

namespace Sys2Proof.Tests

open Sys2Proof Sys2Proof.Machine

/-! ### Helpers -/

/-- Slot 8, 9, 10 are `$t0`, `$t1`, `$t2` (10_state.md R26). -/
abbrev t0 : RegId := .gpr 8
abbrev t1 : RegId := .gpr 9
abbrev t2 : RegId := .gpr 10

/-- Hooks: one that returns the state unchanged with `Ok`, one that sets registers, one that declines. -/
def quietHook : SyscallHook EngineState := { table := [], otherwise := .always (.ok []) }
def settingHook : SyscallHook EngineState :=
  { table := [], otherwise := .always (.ok [(t0, 1#32), (.gpr 0, 9#32), (t0, 2#32), (.hi, 3#32)]) }
def jumpingHook : SyscallHook EngineState := { table := [], otherwise := .always (.ok [(.pc, 7#32)]) }
def decliningHook : SyscallHook EngineState := { table := [], otherwise := .always .notImplemented }

/-- Configurations that differ from the default in one parameter, and one with the family and a hook. -/
def full : Config EngineState := { (Config.default : Config EngineState) with hiloFamily := .full }
def soft0 : Config EngineState := { (Config.default : Config EngineState) with r0Hardwired := false }
def noSll : Config EngineState := { (Config.default : Config EngineState) with sel0IsSll := false }
def hooked (h : SyscallHook EngineState) : Config EngineState :=
  { (Config.default : Config EngineState) with syscallHook := some h }

/-- A loaded machine with the words as its memory, `pc` and registers as given. -/
def machine (cfg : Config EngineState) (words : List Word) (pc : Word) (regs : List (RegId × Word)) : State :=
  (((State.new cfg).load (.assembled words 0)).writeRegs regs).setPc pc

/-- The default machine with one word at index 0. -/
def one (w : Word) : State := machine Config.default [w] 0#32 []

/-- The machine whose last word, at index 2^32 - 1, is `w`, and `pc` there. -/
def last (cfg : Config EngineState) (w : Nat) : State := ((State.new cfg).setPc 0xFFFFFFFF#32).withFetchWord 32 w

/-- A register after one step. -/
def after (s : State) (r : RegId) : Option Word := (nextState (step s)).map (fun t => t.readReg r)

/-- One step of `w` with `$t1`, `$t2` as given leaves `r` at the value given and `pc` at 1. -/
def gives (cfg : Config EngineState) (w : Word) (r : RegId) (rows : List (Word × Word × Word)) : Bool :=
  rows.all (fun row =>
    let s := machine cfg [w] 0#32 [(t1, row.1), (t2, row.2.1)]
    after s r == some row.2.2 && after s .pc == some 1#32)

/-- The same for `hi` and `lo` under `full`. -/
def givesHilo (w : Word) (rows : List (Word × Word × Word × Word)) : Bool :=
  rows.all (fun row =>
    let s := machine full [w] 0#32 [(t1, row.1), (t2, row.2.1)]
    after s .hi == some row.2.2.1 && after s .lo == some row.2.2.2 && after s .pc == some 1#32)

theorem next_of_isSome {o : StepResult} (h : (nextState o).isSome = true) : ∃ t, o = .next t := by
  cases o with
  | next t => exact ⟨t, rfl⟩
  | fault _ => exact absurd h Bool.false_ne_true
  | refused _ => exact absurd h Bool.false_ne_true

theorem fault_of_faultOf {o : StepResult} {f : Fault} (h : faultOf o = some f) : o = .fault f := by
  cases o with
  | next _ => cases h
  | fault _ => exact congrArg _ (Option.some.inj h)
  | refused _ => cases h

/-- What holds of every word of a list is decided word by word. -/
theorem forall_mem_of_all {A : Type} {p : A → Prop} [DecidablePred p] {l : List A}
    (h : l.all (fun a => decide (p a)) = true) : ∀ a ∈ l, p a := by simpa using h

/-! ### WellFormed -/

theorem test_wellFormed_refuses :
    (Instr.sll 8 9 32).wellFormed = false ∧ (Instr.srl 8 9 32).wellFormed = false ∧
    (Instr.sra 8 9 32).wellFormed = false ∧ (Instr.j 67108864).wellFormed = false := by decide

theorem test_wellFormed_accepts :
    (Instr.sll 31 31 31).wellFormed = true ∧ (Instr.srl 0 0 0).wellFormed = true ∧
    (Instr.sra 8 9 31).wellFormed = true ∧ (Instr.j 67108863).wellFormed = true ∧
    (Instr.ori 31 31 0xFFFF#16).wellFormed = true ∧ Instr.syscall.wellFormed = true := by decide

/-! ### Decoding and encoding: 95_test_vectors.md 2.2, the words as the spec writes them -/

def threeRegisterVectors : List (Word × Instr) :=
  [(0x012A4020#32, .add 8 9 10), (0x012A4022#32, .sub 8 9 10), (0x012A4024#32, .and 8 9 10),
   (0x012A4025#32, .or 8 9 10), (0x012A4026#32, .xor 8 9 10), (0x012A402A#32, .slt 8 9 10),
   (0x00094100#32, .sll 8 9 4), (0x00094102#32, .srl 8 9 4), (0x00094103#32, .sra 8 9 4)]

def shiftAndImmediateVectors : List (Word × Instr) :=
  [(0x000947C0#32, .sll 8 9 31), (0x352800FF#32, .ori 8 9 255#16), (0x35288000#32, .ori 8 9 32768#16),
   (0x34080005#32, .ori 8 0 5#16), (0x3408FFFF#32, .ori 8 0 65535#16), (0x08000005#32, .j 5),
   (0x0BFFFFFF#32, .j 67108863), (0x0000000C#32, .syscall), (0x012A0018#32, .mult 9 10)]

def hiloVectors : List (Word × Instr) :=
  [(0x012A0019#32, .multu 9 10), (0x012A001A#32, .div 9 10), (0x012A001B#32, .divu 9 10),
   (0x00004010#32, .mfhi 8), (0x00004012#32, .mflo 8), (0x01200011#32, .mthi 9), (0x01200013#32, .mtlo 9),
   (0x012A0020#32, .add 0 9 10), (0x01084020#32, .add 8 8 8)]

/-- The rows of 2.2, all twenty instructions. -/
def encodeVectors : List (Word × Instr) := threeRegisterVectors ++ shiftAndImmediateVectors ++ hiloVectors

theorem test_decode_vectors : ∀ v ∈ encodeVectors, decodeTableWord 32 v.1.toNat = some v.2 := by decide
theorem test_encode_vectors : ∀ v ∈ encodeVectors, encode v.2 = v.1 := by decide

/-- 2.1: unused fields are ignored; the primary field wins over the function field. -/
theorem test_decode_ignores_unused :
    decodeTableWord 32 0x012A47E0 = some (.add 8 9 10) ∧ decodeTableWord 32 0x03E94100 = some (.sll 8 9 4) ∧
    decodeTableWord 32 0x0000004C = some .syscall ∧ decodeTableWord 32 0x000004D2 = some (.mflo 0) ∧
    decodeTableWord 32 0x08000020 = some (.j 32) ∧ decodeTableWord 32 0x34000020 = some (.ori 0 0 0x20#16) ∧
    decodeTableWord 32 0x03FFFFE0 = some (.add 31 31 31) := by decide

/-- 2.1: the words of no entry. -/
theorem test_decode_rejects :
    ∀ w ∈ [0x00000008, 0x0000000D, 0x012A4021, 0x0000003F, 0x21280005, 0x8D280000, 0xAD280000, 0x11090002,
           0x0C000005, 0x3C081234, 0xFFFFFFFF], decodeTableWord 32 w = none := by decide

/-- The word written out bit by bit: op, rs, rt, rd, shamt, funct (30_encoding.md R82, R92). -/
theorem test_decode_bits :
    decodeTableWord 32 0b000000_01001_01010_01000_00000_100010 = some (.sub 8 9 10) ∧
    decodeTableWord 32 0b000000_00000_01001_01000_00100_000011 = some (.sra 8 9 4) ∧
    decodeTableWord 32 0b001101_01001_01000_1000000000000000 = some (.ori 8 9 0x8000#16) ∧
    decodeTableWord 32 0b000010_11111111111111111111111111 = some (.j 67108863) ∧
    decodeTableWord 32 0b000000_00000_00000_00000_00000_001100 = some .syscall ∧
    decodeTableWord 32 0b000000_00000_00000_01000_00000_010000 = some (.mfhi 8) := by decide

/-! ### Three-register instructions: 95_test_vectors.md 2.3 -/

theorem test_add : gives Config.default 0x012A4020#32 t0
    [(3#32, 4#32, 7#32), (0x7FFFFFFF#32, 1#32, 0x80000000#32), (0xFFFFFFFF#32, 1#32, 0#32),
     (0x80000000#32, 0x80000000#32, 0#32)] = true := by decide

/-- Source and destination the same; slot 0 as destination under both settings (R27, R128). -/
theorem test_add_aliases :
    after (machine Config.default [0x01084020#32] 0#32 [(t0, 0x40000001#32)]) t0 = some 0x80000002#32 ∧
    after (machine Config.default [0x012A0020#32] 0#32 [(t1, 3#32), (t2, 4#32)]) (.gpr 0) = some 0#32 ∧
    after (machine soft0 [0x012A0020#32] 0#32 [(t1, 3#32), (t2, 4#32)]) (.gpr 0) = some 7#32 := by decide

theorem test_sub : gives Config.default 0x012A4022#32 t0
    [(3#32, 4#32, 0xFFFFFFFF#32), (0x80000000#32, 1#32, 0x7FFFFFFF#32),
     (0#32, 0x80000000#32, 0x80000000#32)] = true := by decide

theorem test_and_or_xor :
    gives Config.default 0x012A4024#32 t0 [(0xF0F0A5A5#32, 0x0FF05A5F#32, 0x00F00005#32)] = true ∧
    gives Config.default 0x012A4025#32 t0 [(0xF0F0A5A5#32, 0x0FF05A5F#32, 0xFFF0FFFF#32)] = true ∧
    gives Config.default 0x012A4026#32 t0 [(0xF0F0A5A5#32, 0x0FF05A5F#32, 0xFF00FFFA#32)] = true := by decide

theorem test_slt : gives Config.default 0x012A402A#32 t0
    [(3#32, 4#32, 1#32), (4#32, 3#32, 0#32), (5#32, 5#32, 0#32), (0xFFFFFFFF#32, 0#32, 1#32),
     (0#32, 0xFFFFFFFF#32, 0#32), (0x80000000#32, 0x7FFFFFFF#32, 1#32), (0x7FFFFFFF#32, 0x80000000#32, 0#32)] = true := by
  decide

/-! ### Shifts: 95_test_vectors.md 2.4 -/

theorem test_sll :
    gives Config.default 0x00094100#32 t0 [(0x80000001#32, 0#32, 0x10#32), (0x12345678#32, 0#32, 0x23456780#32)] = true ∧
    gives Config.default 0x000947C0#32 t0 [(0x80000001#32, 0#32, 0x80000000#32), (0x12345678#32, 0#32, 0#32)] = true := by
  decide

/-- The zero word under both settings of `CFG.sel0_is_sll` (2.1). -/
theorem test_sll_selector_zero :
    after (one 0#32) .pc = some 1#32 ∧
    faultOf (step (machine noSll [0#32] 0#32 [])) = some (.unknownInstruction 0#32) ∧
    faultOf (step (machine noSll [0x00094100#32] 0#32 [])) = some (.unknownInstruction 0x00094100#32) := by decide

theorem test_srl :
    gives Config.default 0x00094102#32 t0 [(0x80000001#32, 0#32, 0x08000000#32), (0x12345678#32, 0#32, 0x01234567#32)] = true ∧
    gives Config.default 0x000947C2#32 t0 [(0xFFFFFFFF#32, 0#32, 1#32), (0x12345678#32, 0#32, 0#32)] = true := by decide

theorem test_sra :
    gives Config.default 0x00094103#32 t0 [(0x80000001#32, 0#32, 0xF8000000#32), (0x12345678#32, 0#32, 0x01234567#32)] = true ∧
    gives Config.default 0x000947C3#32 t0 [(0x80000001#32, 0#32, 0xFFFFFFFF#32), (0x12345678#32, 0#32, 0#32)] = true := by
  decide

/-! ### ORI, `li`: 95_test_vectors.md 2.5 -/

theorem test_ori :
    gives Config.default 0x352800FF#32 t0 [(0x12340000#32, 0#32, 0x123400FF#32)] = true ∧
    gives Config.default 0x35288000#32 t0 [(0xFFFF0000#32, 0#32, 0xFFFF8000#32), (0#32, 0#32, 0x8000#32)] = true := by decide

theorem test_li_depends_on_slot_zero :
    after (machine Config.default [0x34080005#32] 0#32 [(t0, 0xDEADBEEF#32), (.gpr 0, 0x100#32)]) t0 = some 5#32 ∧
    after (machine soft0 [0x34080005#32] 0#32 [(.gpr 0, 0x100#32)]) t0 = some 0x105#32 := by decide

/-! ### J: 95_test_vectors.md 2.6 -/

theorem test_j :
    after (one 0x08000005#32) .pc = some 5#32 ∧ after (one 0x0BFFFFFF#32) .pc = some 0x03FFFFFF#32 ∧
    after (machine Config.default (List.replicate 7 0#32 ++ [0x08000000#32]) 7#32 []) .pc = some 0#32 := by decide

/-- The upper bits of `pc` are not kept. -/
theorem test_j_far : after (((State.new Config.default).setPc 0x10000000#32).withFetchWord 32 0x08000005) .pc = some 5#32 := by
  decide

/-! ### SYSCALL: 95_test_vectors.md 2.7 -/

theorem test_syscall_no_hook :
    faultOf (step (one 0x0000000C#32)) = some (.notImplemented 0x0000000C#32) ∧
    faultOf (step (one 0x0000004C#32)) = some (.notImplemented 0x0000004C#32) ∧
    faultOf (step (machine (hooked decliningHook) [0x0000000C#32] 0#32 [])) = some (.notImplemented 0x0000000C#32) := by
  decide

/-- A quiet hook only advances; a hook that sets `pc` is not advanced; its writes to slot 0 are discarded. -/
theorem test_syscall_hook :
    after (machine (hooked quietHook) [0x0000000C#32] 0#32 []) .pc = some 1#32 ∧
    after (machine (hooked jumpingHook) [0x0000000C#32] 0#32 []) .pc = some 7#32 ∧
    after (machine (hooked settingHook) [0x0000000C#32] 0#32 []) t0 = some 2#32 ∧
    after (machine (hooked settingHook) [0x0000000C#32] 0#32 []) (.gpr 0) = some 0#32 ∧
    after (machine (hooked settingHook) [0x0000000C#32] 0#32 []) .hi = some 3#32 := by decide

/-! ### HI/LO: 95_test_vectors.md 2.8 -/

theorem test_hilo_stub :
    ∀ w ∈ [0x00004010#32, 0x01200011#32, 0x00004012#32, 0x01200013#32, 0x012A0018#32, 0x012A0019#32, 0x012A001A#32,
           0x012A001B#32], faultOf (step (one w)) = some (.notImplemented w) := forall_mem_of_all (by decide)

theorem test_mult : givesHilo 0x012A0018#32
    [(3#32, 4#32, 0#32, 0xC#32), (0xFFFFFFFF#32, 0xFFFFFFFF#32, 0#32, 1#32),
     (0x80000000#32, 0x80000000#32, 0x40000000#32, 0#32), (0x7FFFFFFF#32, 0x7FFFFFFF#32, 0x3FFFFFFF#32, 1#32),
     (0xFFFFFFFF#32, 2#32, 0xFFFFFFFF#32, 0xFFFFFFFE#32), (0x80000000#32, 0xFFFFFFFF#32, 0#32, 0x80000000#32)] = true := by
  decide

theorem test_multu : givesHilo 0x012A0019#32
    [(3#32, 4#32, 0#32, 0xC#32), (0xFFFFFFFF#32, 0xFFFFFFFF#32, 0xFFFFFFFE#32, 1#32),
     (0xFFFFFFFF#32, 2#32, 1#32, 0xFFFFFFFE#32), (0x80000000#32, 0xFFFFFFFF#32, 0x7FFFFFFF#32, 0x80000000#32)] = true := by
  decide

theorem test_div : givesHilo 0x012A001A#32
    [(7#32, 2#32, 1#32, 3#32), (0xFFFFFFF9#32, 2#32, 0xFFFFFFFF#32, 0xFFFFFFFD#32),
     (7#32, 0xFFFFFFFE#32, 1#32, 0xFFFFFFFD#32), (0xFFFFFFF9#32, 0xFFFFFFFE#32, 0xFFFFFFFF#32, 3#32),
     (0x80000000#32, 0xFFFFFFFF#32, 0#32, 0x80000000#32), (0x7FFFFFFF#32, 0xFFFFFFFF#32, 0#32, 0x80000001#32)] = true := by
  decide

theorem test_divu : givesHilo 0x012A001B#32
    [(7#32, 2#32, 1#32, 3#32), (0xFFFFFFF9#32, 2#32, 1#32, 0x7FFFFFFC#32), (7#32, 0xFFFFFFFE#32, 7#32, 0#32),
     (0xFFFFFFFF#32, 0xFFFFFFFF#32, 0#32, 1#32), (0x80000000#32, 0xFFFFFFFF#32, 0x80000000#32, 0#32)] = true := by decide

theorem test_div_by_zero :
    faultOf (step (machine full [0x012A001A#32] 0#32 [(t1, 7#32)])) = some (.notImplemented 0x012A001A#32) ∧
    faultOf (step (machine full [0x012A001B#32] 0#32 [(t1, 7#32)])) = some (.notImplemented 0x012A001B#32) := by decide

/-- The machine of the moves: `hi`, `lo` and `$t1` set, one word. -/
def moving (w : Word) : State :=
  machine full [w] 0#32 [(.hi, 0x11111111#32), (.lo, 0x22222222#32), (t1, 0xCAFEF00D#32)]

theorem test_mfhi_mflo :
    after (moving 0x00004010#32) t0 = some 0x11111111#32 ∧ after (moving 0x00004012#32) t0 = some 0x22222222#32 := by decide

theorem test_mthi_mtlo :
    after (moving 0x01200011#32) .hi = some 0xCAFEF00D#32 ∧ after (moving 0x01200011#32) .lo = some 0x22222222#32 ∧
    after (moving 0x01200013#32) .lo = some 0xCAFEF00D#32 ∧ after (moving 0x01200013#32) .hi = some 0x11111111#32 := by decide

/-! ### Fetch, errors, reset: 95_test_vectors.md 2.9 -/

theorem test_reset : State.reset.Inv ∧ State.reset.readReg (.gpr 31) = 0#32 ∧ step State.reset = .refused .notLoaded :=
  ⟨by decide, by decide, rfl⟩

/-- Past the end, at the last word of the address space, and `pc` wrapping there (R55, R31). -/
theorem test_fetch_edges :
    faultOf (step (machine Config.default [0x012A4020#32] 1#32 [])) = some (.unknownInstruction 0#32) ∧
    faultOf (step (machine Config.default [0x012A4020#32] 0xFFFFFFFF#32 [])) = some (.unknownInstruction 0#32) ∧
    after (last Config.default 0x012A4020) .pc = some 0#32 := by decide

/-- A load clears the registers; one that cannot be read changes nothing. -/
theorem test_load :
    let s := machine full [1#32, 2#32] 1#32 [(t1, 7#32), (.hi, 8#32)]
    (s.load (.assembled [5#32] 1)).readReg t1 = 0#32 ∧ (s.load (.assembled [5#32] 1)).hi = 0#32 ∧
    (s.load (.assembled [5#32] 1)).pc = 1#32 ∧ (s.load (.assembled [5#32] 1)).pmem.words = [5#32] ∧
    s.load .unreadable = s := by decide

/-! ### The loader: 95_test_vectors.md S1 to S5, P1, P3 -/

/-- S1: five bytes of space are two zero words. -/
theorem test_space :
    assemble [.dataMarker, .directive (.space (.number 5)), .textMarker, .label "main"] =
      .done (.assembled [0#32, 0#32] 2) := by decide

/-- S3, S4: no `main`, and `main` at byte 2. -/
theorem test_main_errors :
    assemble [.dataMarker, .textMarker, .instr "syscall" []] = .done (.failed [0xC#32] .missingMain) ∧
    assemble [.dataMarker, .directive (.halfword (.number 1)), .label "main"] = .done (.failed [] .invalidMain) := by decide

/-- P1's image. -/
theorem test_program_image :
    assemble [.dataMarker, .textMarker, .label "main",
      .instr "li" [.text "$t1", .number 3], .instr "li" [.text "$t2", .number 4],
      .instr "add" [.text "$t0", .text "$t1", .text "$t2"], .instr "sll" [.text "$t3", .text "$t0", .number 4],
      .instr "slt" [.text "$t5", .text "$t4", .text "$zero"]] =
    .done (.assembled [0x34090003#32, 0x340A0004#32, 0x012A4020#32, 0x00085900#32, 0x0180682A#32] 0) := by decide

/-- P3's image: data first, and a jump to a data label. -/
theorem test_data_image :
    assemble [.dataMarker, .label "val", .directive (.word (.number 1234)), .label "pad", .directive (.space (.number 6)),
      .textMarker, .label "main", .instr "li" [.text "$t0", .number 65535], .instr "j" [.text "val"]] =
    .done (.assembled [0x000004D2#32, 0#32, 0#32, 0x3408FFFF#32, 0x08000000#32] 3) := by decide

/-- R207, R233: labels below the failing line are there for the lines above it; the words kept are those before it. -/
theorem test_error_below_forward_reference :
    assemble [.dataMarker, .textMarker, .label "main", .instr "j" [.text "end"], .instr "bad" [], .label "end"] =
      .done (.failed [0x08000002#32] (.syntaxError 4)) ∧
    assemble [.dataMarker, .directive (.word (.text "fwd")), .directive (.halfword (.number 1)), .label "main", .textMarker,
      .label "fwd"] = .done (.failed [2#32] .invalidMain) := by decide

/-- R67, R207: a line above that names the misaligned `main` does not fail first; R66, U12: another label there is refused. -/
theorem test_unaligned_label_named_above :
    assemble [.dataMarker, .directive (.halfword (.text "main")), .label "main"] = .done (.failed [] .invalidMain) ∧
    assemble [.dataMarker, .directive (.word (.text "lab")), .directive (.halfword (.number 1)), .label "lab"] =
      .unspecified .unalignedLabel := ⟨rfl, rfl⟩

/-- R64: two bytes, most significant first, of a negative value. -/
theorem test_negative_halfword :
    assemble [.dataMarker, .directive (.halfword (.number (-2))), .textMarker, .label "main"] =
      .done (.assembled [0xFFFE0000#32] 1) := by decide

/-- R107: a name that is a variable and a label is the variable. -/
theorem test_variable_before_label :
    assemble [.const "x" (.number 7), .dataMarker, .label "x", .directive (.word (.text "x")), .textMarker, .label "main",
      .instr "j" [.text "x"]] = .done (.assembled [7#32, 0x08000007#32] 1) := by decide

/-- R64: the partial word is padded and flushed. -/
theorem test_align :
    assemble [.dataMarker, .directive (.byte (.number 5)), .directive (.align (.number 1)), .textMarker, .label "main"] =
      .done (.assembled [0x05000000#32] 1) := by decide

/-- R103: the value an opcode lookup gives; `li` is ORI's. -/
theorem test_mnemonics :
    mnemonicToOpcode "add" = 0x20#32 ∧ mnemonicToOpcode "li" = 0x34000000#32 ∧ mnemonicToOpcode "j" = 0x08000000#32 ∧
    mnemonicToOpcode "jal" = 0#32 := by decide

/-! ### Witnesses: concrete states and operands that meet the hypotheses of each statement, clause by clause -/

theorem witness_LoadClearsRegistersAndTakesTheImage :
    [5#32, 6#32].length ≤ 2 ^ 32 ∧ (0 ≤ [5#32, 6#32].length ∧ 0 < 2 ^ 32) ∧ (2 ≤ [5#32, 6#32].length ∧ 2 < 2 ^ 32) := by
  decide

theorem witness_InjectionWritesOneRegister :
    RegWritable State.reset (.gpr 31) ∧ RegWritable State.reset .pc ∧ RegWritable (State.new soft0) (.gpr 0) ∧
    ¬ RegWritable State.reset (.gpr 0) ∧ RegId.hi ≠ .lo := by unfold RegWritable; decide

theorem witness_StepIsRefusedExactlyWithoutALoad : State.reset.loaded = false ∧ ∃ r, step State.reset = .refused r :=
  ⟨rfl, .notLoaded, rfl⟩

theorem witness_FirstStepAfterLoadRunsMain :
    [0#32, 0x012A4020#32].length ≤ 2 ^ 32 ∧ [0#32, 0x012A4020#32][1]? = some 0x012A4020#32 ∧
    decodeWord 0x012A4020#32 = .ok (.add 8 9 10) := ⟨by decide, rfl, rfl⟩

theorem witness_StepRunsTheDecodedInstruction :
    (one 0x012A4020#32).loaded = true ∧
    (one 0x012A4020#32).pmem.read (one 0x012A4020#32).pc.toNat = some 0x012A4020#32 ∧
    decodeWord 0x012A4020#32 = .ok (.add 8 9 10) := ⟨by decide, by decide, rfl⟩

theorem witness_WithFetchWordRunsTheInstruction :
    State.reset.pmem.wf ∧ 0x0BFFFFFF < 2 ^ 32 ∧ decodeTableWord 32 0x0BFFFFFF = some (.j 67108863) := by decide

/-- At the end exactly, and at the last index there is. -/
theorem witness_StepPastTheEndIsUnknown :
    let s := machine Config.default [0#32] 1#32 []
    let t := machine Config.default [0#32] 0xFFFFFFFF#32 []
    (s.loaded = true ∧ s.pmem.size ≤ s.pc.toNat) ∧ (t.loaded = true ∧ t.pmem.size ≤ t.pc.toNat) := by decide

/-- A fetched word that is unknown, one that is not, and selector 0 with and without SLL. -/
theorem witness_UnknownInstructionsAreExactlyTheUncataloguedWords :
    (∀ w ∈ [0xFFFFFFFF#32, 0x012A4020#32], (one w).loaded = true ∧ (one w).pmem.read (one w).pc.toNat = some w) ∧
    IsUnknown Config.default 0xFFFFFFFF#32 ∧ ¬ IsUnknown Config.default 0x012A4020#32 ∧
    IsUnknown noSll 0#32 ∧ ¬ IsUnknown Config.default 0#32 :=
  ⟨forall_mem_of_all (by decide), by unfold IsUnknown; decide⟩

/-- A fault of each kind, and a word that is neither. -/
theorem witness_FaultsHaveExactlyTheListedCauses :
    (∀ w ∈ [0x3F#32, 0x0C#32, 0x20#32], (one w).loaded = true ∧ (one w).pmem.read (one w).pc.toNat = some w) ∧
    step (one 0x3F#32) = .fault (.unknownInstruction 0x3F#32) ∧ IsNotImplemented (one 0x0C#32) 0x0C#32 ∧
    ¬ IsUnknown (one 0x20#32).cfg 0x20#32 ∧ ¬ IsNotImplemented (one 0x20#32) 0x20#32 := by
  refine ⟨forall_mem_of_all (by decide), fault_of_faultOf (by decide), .inl ⟨⟨by decide, by decide⟩, by decide⟩, ?_, ?_⟩
  · unfold IsUnknown; decide
  · have h0C : ¬ HasFunction 0x20#32 0x0C#6 := by unfold HasFunction; decide
    have hHilo : ¬ IsHilo 0x20#32 := by unfold IsHilo HasFunction; decide
    have h1A : ¬ (HasFunction 0x20#32 0x1A#6 ∨ HasFunction 0x20#32 0x1B#6) := by unfold HasFunction; decide
    rintro (h | h | h | h)
    · exact h0C h.1
    · exact h0C h.1
    · exact hHilo h.1
    · exact h1A h.1

/-- `NotImplemented` for each of the other causes. -/
theorem witness_FaultsHaveExactlyTheListedCauses_notImplemented :
    IsNotImplemented (machine (hooked decliningHook) [0x0C#32] 0#32 []) 0x0C#32 ∧
    IsNotImplemented (one 0x10#32) 0x10#32 ∧ IsNotImplemented (machine full [0x1A#32] 0#32 []) 0x1A#32 ∧
    IsNotImplemented (machine full [0x1B#32] 0#32 []) 0x1B#32 :=
  ⟨.inr (.inl ⟨⟨by decide, by decide⟩, decliningHook, by decide, by decide⟩),
   .inr (.inr (.inl ⟨⟨0x10#6, by decide, by decide, by decide⟩, by decide⟩)),
   .inr (.inr (.inr ⟨.inl ⟨by decide, by decide⟩, by decide, by decide⟩)),
   .inr (.inr (.inr ⟨.inr ⟨by decide, by decide⟩, by decide, by decide⟩))⟩

/-- A jump, a system call with and without a write of `pc`, and the wrap of `pc` at the top of the address space. -/
theorem witness_StepMovesPcByInstructionKind :
    (∃ t, step (one 0x08000005#32) = .next t) ∧
    (∃ t, step (machine (hooked settingHook) [0x0C#32] 0#32 []) = .next t) ∧
    (∃ t, step (machine (hooked jumpingHook) [0x0C#32] 0#32 []) = .next t) ∧
    (∃ t, step (last Config.default 0x012A4020) = .next t) ∧
    (∀ v, (RegId.pc, v) ∉ [(t0, 1#32), (.gpr 0, 9#32), (t0, 2#32), (.hi, 3#32)]) := by
  refine ⟨next_of_isSome (by decide), next_of_isSome (by decide), next_of_isSome (by decide), next_of_isSome (by decide), ?_⟩
  intro v; simp

theorem steps_of_isSome {s : State} (h : (nextState (step s)).isSome = true) : ∃ t, step s = .next t ∧ Steps s t :=
  (next_of_isSome h).imp fun _ ht => ⟨ht, (Steps.refl s).tail ht⟩

theorem witness_StepsNeverChangeProgramMemory :
    (∃ t, step (one 0x012A4020#32) = .next t ∧ Steps (one 0x012A4020#32) t) ∧
    HostAction.inject .pc 3#32 ≠ .new ∧ ∀ a, HostAction.inject .pc 3#32 ≠ .load a :=
  ⟨steps_of_isSome (by decide), by decide, fun _ h => nomatch h⟩

theorem witness_ConfigurationAndLoadedAreConstant :
    ∃ t, step (machine full [0x012A0018#32] 0#32 []) = .next t ∧ Steps (machine full [0x012A0018#32] 0#32 []) t :=
  steps_of_isSome (by decide)

/-- A multiply that changes both, and a hook that changes `hi`. -/
theorem witness_OnlyTheHiloFamilyChangesHiAndLo :
    (∃ t, step (machine full [0x012A0019#32] 0#32 [(t1, 0xFFFFFFFF#32), (t2, 2#32)]) = .next t) ∧
    after (machine full [0x012A0019#32] 0#32 [(t1, 0xFFFFFFFF#32), (t2, 2#32)]) .hi = some 1#32 ∧
    after (machine full [0x012A0019#32] 0#32 [(t1, 0xFFFFFFFF#32), (t2, 2#32)]) .lo = some 0xFFFFFFFE#32 ∧
    (∃ t, step (machine (hooked settingHook) [0x0C#32] 0#32 []) = .next t) :=
  ⟨next_of_isSome (by decide), by decide, by decide, next_of_isSome (by decide)⟩

theorem witness_StubbedHiloNeverChanges :
    (one 0x012A4020#32).cfg.hiloFamily = .stub ∧ (one 0x012A4020#32).cfg.syscallHook = none ∧
    ∃ t, step (one 0x012A4020#32) = .next t ∧ Steps (one 0x012A4020#32) t :=
  ⟨by decide, by decide, steps_of_isSome (by decide)⟩

/-- Two machines that differ in `$t1`, `hi` and `lo`. -/
theorem witness_ControlFlowIgnoresRegisterValues :
    let s := one 0x012A4020#32
    let t := machine Config.default [0x012A4020#32] 0#32 [(t1, 5#32), (.hi, 6#32), (.lo, 7#32)]
    t ≠ s ∧ t.pc = s.pc ∧ t.pmem = s.pmem ∧ t.loaded = s.loaded ∧ t.cfg = s.cfg ∧ s.cfg.syscallHook = none ∧
    (∃ s', step s = .next s') ∧ ∃ t', step t = .next t' :=
  ⟨by decide, by decide, by decide, by decide, by decide, by decide, next_of_isSome (by decide), next_of_isSome (by decide)⟩

theorem witness_StepKeepsTheInvariant :
    (∃ t, (one 0x012A4020#32).Inv ∧ step (one 0x012A4020#32) = .next t) ∧
    ∃ t, (machine soft0 [0x012A0020#32] 0#32 [(.gpr 0, 3#32)]).Inv ∧
      step (machine soft0 [0x012A0020#32] 0#32 [(.gpr 0, 3#32)]) = .next t :=
  ⟨(next_of_isSome (by decide)).imp fun _ h => ⟨by decide, h⟩, (next_of_isSome (by decide)).imp fun _ h => ⟨by decide, h⟩⟩

/-- Reset, a load, a step. -/
theorem witness_SessionsKeepTheInvariant :
    State.reset.Inv ∧ ∃ t, Session State.reset t ∧ t.pc = 1#32 := by
  refine ⟨by decide, ?_⟩
  obtain ⟨t, ht⟩ := next_of_isSome
    (o := step (State.reset.afterHost (.load (.assembled [0x012A4020#32] 0)))) (by decide)
  refine ⟨t, ((Session.refl _).host _ ?_).step ht, ?_⟩
  · rintro _ ⟨⟩; decide
  · have h : (nextState (step (State.reset.afterHost (.load (.assembled [0x012A4020#32] 0))))).map (fun u => u.pc)
        = some 1#32 := by decide
    rw [ht] at h
    exact Option.some.inj h

/-- A run that ends after a step, and one that has ended where it stands. -/
theorem witness_RunsEndOnlyAtTheChosenPc :
    (∃ t, RunTo 1#32 (one 0x012A4020#32) t) ∧ RunTo 0#32 (one 0x3F#32) (one 0x3F#32) := by
  refine ⟨?_, .done (by decide)⟩
  obtain ⟨t, ht⟩ := next_of_isSome (o := step (one 0x012A4020#32)) (by decide)
  refine ⟨t, .step (by decide) ht (.done ?_)⟩
  have h : (nextState (step (one 0x012A4020#32))).map (fun u => u.pc) = some 1#32 := by decide
  rw [ht] at h
  exact Option.some.inj h

/-- Away from the chosen `pc`: no load, the end of memory, an unknown word, one that is not implemented, a jump to itself, a
jump to the chosen `pc`. -/
theorem witness_RunsEndOnlyAtTheChosenPc_away :
    (State.reset.pc ≠ 1#32 ∧ State.reset.loaded = false) ∧
    ((machine full [0#32] 1#32 []).pc ≠ 0#32 ∧ (machine full [0#32] 1#32 []).loaded = true ∧
      (machine full [0#32] 1#32 []).pmem.size ≤ (machine full [0#32] 1#32 []).pc.toNat) ∧
    (∀ w ∈ [0x3F#32, 0x0C#32, 0x08000000#32, 0x08000001#32], (one w).pc ≠ 1#32 ∧ (one w).loaded = true ∧
      (one w).pmem.read (one w).pc.toNat = some w) ∧
    IsUnknown (one 0x3F#32).cfg 0x3F#32 ∧ IsNotImplemented (one 0x0C#32) 0x0C#32 ∧
    ((one 0x08000000#32).pc.toNat < 2 ^ 26 ∧ 0x08000000#32 = 0x08000000#32 ||| (one 0x08000000#32).pc) ∧
    ((0x08000001#32).extractLsb' 26 6 = 0x02#6 ∧ ((0x08000001#32).extractLsb' 0 26).toNat = (1#32).toNat) := by
  refine ⟨by decide, by decide, forall_mem_of_all (by decide), ?_, .inl ⟨⟨by decide, by decide⟩, by decide⟩, by decide,
    by decide⟩
  unfold IsUnknown; decide

theorem witness_SlotReadsAfterWrites :
    State.reset.cfg.r0Hardwired = true ∧ Writable State.reset 31 ∧ ¬ Writable State.reset 0 ∧ Writable (State.new soft0) 0 := by
  unfold Writable; decide

theorem witness_CanonicalMemoriesThatReadAlikeAreEqual :
    let m := Memory.ofWords [0#32, 5#32]
    let n : Memory := { size := 2, cells := [(1, 5#32)] }
    m.wf ∧ n.wf ∧ ∀ a, m.read a = n.read a := ⟨by decide, by decide, fun _ => rfl⟩

/-- The least and the greatest primary field, and the zero one with two function fields. -/
theorem witness_SelectorIsPrimaryElseFunctionField :
    0x04000020#32 &&& 0xFC000000#32 ≠ 0#32 ∧ 0xFFFFFFFF#32 &&& 0xFC000000#32 ≠ 0#32 ∧
    0x03FFFFE0#32 &&& 0xFC000000#32 = 0#32 ∧ 0x3F#32 &&& 0xFC000000#32 = 0#32 ∧
    decodeWord 0x03FFFFE0#32 = .ok (.add 31 31 31) := ⟨by decide, by decide, by decide, by decide, rfl⟩

theorem witness_RowsAreSelectedByMaskAndMatch :
    0x08000020#32 &&& rowMask .j = Opcode.j.sel ∧ 0x012A47E0#32 &&& rowMask .add = Opcode.add.sel ∧
    ∀ o, 0x21280005#32 &&& rowMask o ≠ o.sel := by
  refine ⟨by decide, by decide, ?_⟩
  intro o; cases o <;> decide

/-- Every field at its greatest value. -/
theorem witness_DecodeOfEncodeIsTheInstruction :
    ∀ i ∈ [Instr.sll 31 31 31, .j 67108863, .ori 31 31 0xFFFF#16, .add 31 31 31, .divu 31 31, .syscall],
      i.wellFormed = true := by decide

theorem witness_ShiftsMultiplyAndDivideByPowersOfTwo : 0 < 32 ∧ 31 < 32 ∧ State.reset.cfg.sel0IsSll = true := by decide

theorem witness_SelectorZeroWithoutSllIsUnknown :
    let s := machine noSll [0x03E94100#32] 0#32 []
    s.loaded = true ∧ s.pmem.read s.pc.toNat = some 0x03E94100#32 ∧ HasFunction 0x03E94100#32 0#6 ∧
    s.cfg.sel0IsSll = false := by unfold HasFunction; decide

theorem witness_ZeroCellOnlyAdvances :
    (one 0#32).loaded = true ∧ (one 0#32).pmem.read (one 0#32).pc.toNat = some 0#32 ∧ (one 0#32).cfg.sel0IsSll = true := by
  decide

/-- `li $t0, 65535` and `li $zero, 0`. -/
theorem witness_LiLoadsTheZeroExtendedImmediate :
    ∀ p ∈ [((8 : Slot), 0xFFFF#16), (0, 0#16)],
      let w := 0x34000000#32 ||| BitVec.ofNat 32 p.1 <<< 16 ||| p.2.setWidth 32
      (one w).loaded = true ∧ (one w).cfg.r0Hardwired = true ∧ (one w).pmem.read (one w).pc.toNat = some w :=
  forall_mem_of_all (by decide)

theorem witness_JumpSetsPcAndNothingElse : 0 < 2 ^ 26 ∧ 67108863 < 2 ^ 26 := by decide

theorem witness_StepAfterAJumpFetchesAtTheTarget :
    let s := one 0x0BFFFFFF#32
    s.loaded = true ∧ s.pmem.read s.pc.toNat = some 0x0BFFFFFF#32 ∧ (0x0BFFFFFF#32).extractLsb' 26 6 = 0x02#6 := by decide

/-- A jump to the first index past the end, and to the farthest. -/
theorem witness_JumpPastTheEndFailsAtTheNextStep :
    let s := one 0x08000001#32
    s.loaded = true ∧ (1 < 2 ^ 26 ∧ s.pmem.size ≤ 1) ∧ (67108863 < 2 ^ 26 ∧ s.pmem.size ≤ 67108863) := by decide

/-- 95_test_vectors.md 2.6, third row. -/
theorem witness_JumpToItselfRunsForever :
    let s := machine Config.default (List.replicate 4 0#32 ++ [0x08000004#32]) 4#32 []
    s.loaded = true ∧ s.pc.toNat < 2 ^ 26 ∧ s.pmem.read s.pc.toNat = some (0x08000000#32 ||| s.pc) := by decide

theorem witness_SyscallWithoutHookIsNotImplemented :
    let s := one 0x03FFFFCC#32
    s.loaded = true ∧ s.pmem.read s.pc.toNat = some 0x03FFFFCC#32 ∧ HasFunction 0x03FFFFCC#32 0x0C#6 ∧
    s.cfg.syscallHook = none := by unfold HasFunction; decide

/-- A hook that writes `$t0` twice and the hard-wired slot; its last write of `$t0`, and of slot 0. -/
theorem witness_SyscallDoesWhatItsHookAnswers :
    let s := machine (hooked settingHook) [0x0C#32] 0#32 []
    let writes := [(t0, 1#32), (.gpr 0, 9#32), (t0, 2#32), (.hi, 3#32)]
    s.cfg.syscallHook = some settingHook ∧ hookAnswer settingHook s.toEngineState = .ok writes ∧
    (∀ v, (RegId.pc, v) ∉ writes) ∧ (∀ v, (t1, v) ∉ writes) ∧
    writes = [(t0, 1#32), (.gpr 0, 9#32)] ++ (t0, 2#32) :: [(.hi, 3#32)] ∧ (∀ u, (t0, u) ∉ [(RegId.hi, 3#32)]) ∧
    writes = [(t0, 1#32)] ++ (.gpr 0, 9#32) :: [(t0, 2#32), (.hi, 3#32)] ∧
    (∀ u, (RegId.gpr 0, u) ∉ [(t0, 2#32), (RegId.hi, 3#32)]) ∧ RegWritable s t0 ∧ ¬ RegWritable s (.gpr 0) := by
  refine ⟨by decide, by decide, by simp, by simp, rfl, by simp, rfl, by simp, ?_, ?_⟩ <;> unfold RegWritable <;> decide

theorem witness_StubbedHiloWordsAreNotImplemented :
    ∀ w ∈ [0x00004010#32, 0x012A001B#32], (one w).loaded = true ∧ (one w).pmem.read (one w).pc.toNat = some w ∧ IsHilo w ∧
      (one w).cfg.hiloFamily = .stub := by
  unfold IsHilo HasFunction; exact forall_mem_of_all (by decide)

/-- For MovesFromHiAndLo, MovesToHiAndLo, MultipliesAreExactIn64Bits. -/
theorem witness_MovesAndMultipliesUnderFull : (moving 0#32).cfg.hiloFamily = .full := by decide

/-- An ordinary divisor, and the overflow. -/
theorem witness_DivGivesTruncatedQuotientAndRemainder :
    let s := machine full [] 0#32 [(t1, 0x80000000#32), (t2, 0xFFFFFFFF#32)]
    s.cfg.hiloFamily = .full ∧ s.readSlot 10 ≠ 0#32 ∧
    ¬ (s.readSlot 10 = 0x80000000#32 ∧ s.readSlot 9 = 0xFFFFFFFF#32) ∧ s.readSlot 9 ≠ 0#32 ∧
    (s.readSlot 9 = 0x80000000#32 ∧ s.readSlot 10 = 0xFFFFFFFF#32) := by decide

theorem witness_DivuGivesQuotientAndRemainder :
    let s := machine full [] 0#32 [(t2, 1#32)]
    s.cfg.hiloFamily = .full ∧ s.readSlot 10 ≠ 0#32 := by decide

theorem witness_ZeroDivisorIsNotImplemented :
    ∀ w ∈ [0x012A001A#32, 0x012A001B#32],
      let s := machine full [w] 0#32 [(t1, 7#32)]
      s.loaded = true ∧ s.pmem.read s.pc.toNat = some w ∧ (HasFunction w 0x1A#6 ∨ HasFunction w 0x1B#6) ∧
      s.cfg.hiloFamily = .full ∧ s.readSlot (rtField w) = 0#32 := by
  unfold HasFunction; exact forall_mem_of_all (by decide)

theorem witness_ProductIsReadByTheNextInstruction :
    (moving 0#32).cfg.hiloFamily = .full ∧ Writable (moving 0#32) 8 := by unfold Writable; decide

theorem witness_WordDirectiveIsBigEndian :
    ∀ v ∈ [(-2 ^ 31 : Int), 0, 2 ^ 32 - 1], -2 ^ 31 ≤ v ∧ v < 2 ^ 32 := by decide

/-- `main` at the end of the image, and before it. -/
theorem witness_EntryIsInsideTheImage :
    assemble [.dataMarker, .textMarker, .label "main"] = .done (.assembled [] 0) ∧
    assemble [.dataMarker, .textMarker, .label "main", .instr "syscall" []] = .done (.assembled [0xC#32] 0) := by decide

/-- The first and the last name, and names that are none: one past the last slot, a doubled sign, the empty name. -/
theorem witness_RegisterNamesResolveToTheirSlots :
    ((0 : Slot), ["0", "zero"]) ∈ slotNames ∧ ((31 : Slot), ["31", "ra"]) ∈ slotNames ∧
    ∀ name ∈ ["32", "x9", "$$0", "$", ""], ∀ row ∈ slotNames, ∀ n ∈ row.2, name ≠ n ∧ name ≠ "$" ++ n := by decide

theorem witness_NamesResolveToVariablesThenLabels :
    let sym : Symbols := { vars := [("x", 7)], labels := [("x", 1), ("far", 67108863)], unaligned := [("odd", 0, 2)] }
    sym.vars.lookup "odd" = none ∧ sym.labels.lookup "odd" = none ∧ sym.unaligned.lookup "odd" = some (0, 2) ∧
    sym.unaligned.lookup "y" = none ∧ sym.vars.lookup "x" = some 7 ∧ sym.vars.lookup "far" = none ∧ sym.labels.lookup "far" = some 67108863 ∧
    67108863 < 2 ^ 26 ∧ sym.vars.lookup "y" = none ∧ sym.labels.lookup "y" = none := by decide

theorem witness_MisalignedMainIsInvalidMain : 
    ∀ v ∈ [(-2 ^ 15 : Int), 0, 65535], -2 ^ 15 ≤ v ∧ v < 2 ^ 16 := by decide

end Sys2Proof.Tests
end

section
/-! PROOFS. Program memory is constant (20_memory.md R58, R59): no instruction stores, so a step keeps the whole setup of
the machine (memory, `loaded`, the configuration), and so does any sequence of steps. -/

namespace Sys2Proof.Machine

theorem SameSetup.trans {s t u : State} (first : SameSetup s t) (rest : SameSetup t u) : SameSetup s u := by
  obtain ⟨hmem, hloaded, hcfg⟩ := first
  obtain ⟨gmem, gloaded, gcfg⟩ := rest
  exact ⟨gmem.trans hmem, gloaded.trans hloaded, gcfg.trans hcfg⟩

/-- Each shape of an instruction's effect writes registers and `pc` only (20_memory.md R58). -/
theorem exec_sameSetup {i : Instr} {s t : State} (h : exec i s = .next t) : SameSetup s t := by
  obtain ⟨rd, v, rfl⟩ | ⟨hi, lo, rfl⟩ | ⟨target, -, rfl⟩ | ⟨writes, -, rfl⟩ := exec_next_shape h
  · simp [SameSetup]
  · simp [SameSetup]
  · simp [SameSetup]
  · exact s.afterHook_sameSetup writes

theorem step_sameSetup {s t : State} (h : step s = .next t) : SameSetup s t := by
  obtain ⟨-, w, i, -, -, hexec⟩ := step_eq_next.mp h
  exact exec_sameSetup hexec

theorem Steps.sameSetup {s t : State} (run : Steps s t) : SameSetup s t := by
  induction run with
  | refl => exact ⟨rfl, rfl, rfl⟩
  | tail _ last ih => exact ih.trans (step_sameSetup last)

/-- Injections and reads leave memory alone (70_reset_and_hazards.md R240). -/
theorem State.afterHost_pmem (s : State) {act : HostAction} (hnew : act ≠ .new) (hload : ∀ a, act ≠ .load a) :
    (s.afterHost act).pmem = s.pmem := by
  cases act with
  | new => exact absurd rfl hnew
  | load a => exact absurd rfl (hload a)
  | inject r v => exact (s.writeReg_sameSetup r v).1
  | displayRegister r => rfl
  | dumpProgram => rfl

/-- Settles O13: steps keep the setup, by induction on the run; the host's side is a split on its operation. -/
theorem stepsNeverChangeProgramMemory : Obligations.StepsNeverChangeProgramMemory := by
  refine ⟨fun s t run => ?_, fun s act => s.afterHost_pmem⟩
  obtain ⟨hmem, -, -⟩ := run.sameSetup
  simp [hmem]

end Sys2Proof.Machine
end

section
/-! PROOFS. The selector of a word and the catalog entry the decoder answers with (30_encoding.md R86, R88). -/

namespace Sys2Proof

/-- Assembling the operands keeps the catalog entry. -/
@[simp] theorem Opcode.opcode_assemble (o : Opcode) (w : Word) : (o.assemble w).opcode = o := by
  cases o <;> rfl

/-- The entry the decoder answers with is the one the word's selector names. -/
theorem sel_opcode_of_decodeWord {w : Word} {i : Instr} (h : decodeWord w = .ok i) : i.opcode.sel = selector w := by
  obtain ⟨o, hsel, rfl⟩ := decodeWord_eq_ok h
  rw [Opcode.opcode_assemble, hsel]

end Sys2Proof

namespace Sys2Proof.Machine

/-- Settles O24: the two branches of the selector, and the decoder's entry is found under the selector. -/
theorem selectorIsPrimaryElseFunctionField : Obligations.SelectorIsPrimaryElseFunctionField :=
  ⟨fun _ => selector_of_primary, fun _ => selector_of_primary_zero, fun _ _ => sel_opcode_of_decodeWord⟩

end Sys2Proof.Machine
end

section
/-! PROOFS. The fields of a composed word read back (30_encoding.md R82, R100): a value placed at its field is that field's
reading, and every field beside it reads zero. -/

namespace Sys2Proof

/-- A field's reading distributes over the parts a word is composed of. -/
theorem bitField_or (v w : Word) (lo width : Nat) :
    bitField (v ||| w) lo width = bitField v lo width ||| bitField w lo width :=
  BitVec.extractLsb'_or

/-- A field reads the value placed at it. -/
theorem bitField_atBit_same (v : Nat) {lo width : Nat} (inside : lo + width ≤ 32) :
    bitField (atBit v lo) lo width = BitVec.ofNat width v := by
  apply BitVec.eq_of_getLsbD_eq
  intro k hk
  have hword : lo + k < 32 := by omega
  have hlow : k < 32 := by omega
  simp only [bitField, atBit, BitVec.getLsbD_extractLsb', BitVec.getLsbD_shiftLeft, BitVec.getLsbD_ofNat]
  simp [hk, hword, hlow]

/-- A field reads zero off a value placed wholly below it or wholly above it. -/
theorem bitField_atBit_apart {v place lo width : Nat}
    (apart : (place ≤ lo ∧ v < 2 ^ (lo - place)) ∨ lo + width ≤ place) :
    bitField (atBit v place) lo width = 0#width := by
  apply BitVec.eq_of_getLsbD_eq
  intro k _
  rcases apart with ⟨hplace, hv⟩ | above
  · have hbit : v.testBit (lo + k - place) = false :=
      Nat.testBit_lt_two_pow (hv.trans_le (Nat.pow_le_pow_right (by decide) (by omega)))
    simp [bitField, atBit, BitVec.getLsbD_ofNat, hbit]
  · have hlow : lo + k < place := by omega
    simp [bitField, atBit, hlow]

/-- No selector has a bit in the region of the register fields (30_encoding.md R82, R92). -/
theorem registerFields_sel (o : Opcode) :
    bitField o.sel 21 5 = 0#5 ∧ bitField o.sel 16 5 = 0#5 ∧ bitField o.sel 11 5 = 0#5 := by
  cases o <;> decide

/-- Of the five parts of an R-type word, each register field sees its own register alone. -/
theorem registerFields_encodeR (o : Opcode) (rs rt rd : Slot) {n : Nat} (h : n < 32) :
    rsField (encodeR o rs rt rd n) = rs ∧ rtField (encodeR o rs rt rd n) = rt ∧ rdField (encodeR o rs rt rd n) = rd := by
  obtain ⟨hsel21, hsel16, hsel11⟩ := registerFields_sel o
  have hrs := rs.isLt
  have hrt := rt.isLt
  have hrd := rd.isLt
  have hslot (r : Slot) : (BitVec.ofNat 5 r.val).toFin = r := Fin.ext (Nat.mod_eq_of_lt r.isLt)
  simp (disch := omega) only [rsField, rtField, rdField, encodeR, bitField_or, hsel21, hsel16, hsel11,
    bitField_atBit_same, bitField_atBit_apart, BitVec.or_zero, BitVec.zero_or, hslot, and_self]

/-- The composition of 40_alu_register.md R121 is the encoder's: the shift count ADD does not use is composed as zero. -/
theorem encode_add (rd rs rt : Slot) :
    encode (.add rd rs rt) =
      0x00000020#32 ||| BitVec.ofNat 32 rs <<< 21 ||| BitVec.ofNat 32 rt <<< 16 ||| BitVec.ofNat 32 rd <<< 11 :=
  BitVec.or_zero

/-- The word of an ADD decodes to it: the selector is the entry's and the three fields read back. -/
theorem decodeWord_encode_add (rd rs rt : Slot) : decodeWord (encode (.add rd rs rt)) = .ok (.add rd rs rt) := by
  obtain ⟨hrs, hrt, hrd⟩ := registerFields_encodeR .add rs rt rd (n := 0) (by decide)
  rw [decodeWord_of_selector (Laws.EncodedSelector.add rd rs rt rfl)]
  simp only [encode, Instr.opcode, Opcode.assemble, hrs, hrt, hrd]

end Sys2Proof
end

section
/-! PROOFS. The instructions that write one slot and advance (10_state.md R23, R24, R29; 40_alu_register.md R120, R121). -/

namespace Sys2Proof.Machine

/-- A slot is hard-wired exactly when a write to it is discarded. -/
theorem isWiredZero_iff_not_writable (s : State) (i : Slot) : s.isWiredZero i = true ↔ ¬ Writable s i := by
  simp [State.isWiredZero, Writable]

/-- What the destination reads after a write and the advance, hard-wired or not. -/
theorem slotReads_writeSlot_advance (s : State) (rd : Slot) (v : Word) : SlotReads rd v s (s.writeSlot rd v).advance := by
  rw [SlotReads, State.readSlot_advance, State.readSlot_writeSlot_same]
  constructor
  · intro writable
    exact if_neg fun wired => (isWiredZero_iff_not_writable s rd).mp wired writable
  · intro wired
    exact if_pos ((isWiredZero_iff_not_writable s rd).mpr wired)

/-- The frame of a slot write followed by the advance. -/
theorem onlySlot_writeSlot_advance (s : State) (rd : Slot) (v : Word) : OnlySlot rd s (s.writeSlot rd v).advance := by
  refine ⟨fun i other => ?_, ⟨rfl, rfl⟩, fun _ => rfl, rfl, rfl, rfl⟩
  rw [State.readSlot_advance, State.readSlot_writeSlot_other s v other]

/-- The whole effect of the three-register template (40_alu_register.md R120), whatever it computes. -/
theorem threeRegister_effect (f : Word → Word → Word) (rd rs rt : Slot) (s : State) :
    ∃ t, threeRegister f rd rs rt s = .next t ∧ SlotReads rd (f (s.readSlot rs) (s.readSlot rt)) s t ∧
      OnlySlot rd s t ∧ t.pc = s.pc + 1#32 :=
  ⟨_, rfl, slotReads_writeSlot_advance s rd _, onlySlot_writeSlot_advance s rd _, rfl⟩

/-- Settles O29: the word is the encoder's, and ADD is the three-register template over the 32-bit sum. -/
theorem addWritesTheWrappedSum : Obligations.AddWritesTheWrappedSum := by
  intro rd rs rt s
  refine ⟨encode_add rd rs rt ▸ decodeWord_encode_add rd rs rt, ?_⟩
  obtain ⟨t, hexec, hreads, hframe, hpc⟩ := threeRegister_effect (fun a b => a + b) rd rs rt s
  exact ⟨t, s.readSlot rs + s.readSlot rt, hexec, BitVec.toNat_add _ _, hreads, hframe, hpc⟩

end Sys2Proof.Machine
end

section
/-! PROOFS. The word of a jump (30_encoding.md R82, R86, R92): its selector is its primary opcode kept in place. -/

namespace Sys2Proof

/-- The selector's mask keeps the primary opcode at its place and clears the rest (30_encoding.md R86). -/
theorem and_primaryMask (w : Word) : w &&& 0xFC000000#32 = (bitField w 26 6).setWidth 32 <<< 26 := by
  have mask : ∀ k : Fin 32, (0xFC000000#32).getLsbD k = decide (26 ≤ k.val) := by decide
  apply BitVec.eq_of_getLsbD_eq
  intro k hk
  rw [BitVec.getLsbD_and, mask ⟨k, hk⟩, BitVec.getLsbD_shiftLeft]
  by_cases inside : 26 ≤ k
  · have hfield : k - 26 < 6 := by omega
    have hword : k - 26 < 32 := by omega
    simp [bitField, inside, hk, hfield, hword]
  · simp [inside]

/-- Every word of primary opcode 0x02 is a J to its 26-bit field (30_encoding.md R92, R113). -/
theorem decodeWord_of_primary_j {w : Word} (h : w.extractLsb' 26 6 = 0x02#6) : decodeWord w = .ok (.j (targetField w)) := by
  have hprimary : w &&& 0xFC000000#32 = Opcode.j.sel := by
    rw [and_primaryMask, bitField, h]
    decide
  have hnonzero : w &&& 0xFC000000#32 ≠ 0#32 := by
    rw [hprimary]
    decide
  exact decodeWord_of_selector ((selector_of_primary hnonzero).trans hprimary)

end Sys2Proof
end

section
/-! PROOFS. The jump (43_jump.md R160, R161): it sets `pc` and nothing else, so the next fetch is at its target. -/

namespace Sys2Proof.Machine

/-- The frame of an instruction that sets `pc` alone. -/
theorem State.setPc_frame (s : State) (v : Word) :
    KeepsSlots s (s.setPc v) ∧ KeepsHilo s (s.setPc v) ∧ KeepsMemory s (s.setPc v) :=
  ⟨s.readSlot_setPc v, ⟨rfl, rfl⟩, fun _ => rfl, rfl, rfl, rfl⟩

/-- A word's target field is its own word index (30_encoding.md R113): 26 bits fit in a `pc`. -/
theorem toNat_jumpIndex_targetField (w : Word) : (jumpIndex (targetField w)).toNat = (w.extractLsb' 0 26).toNat := by
  have hfits : (w.extractLsb' 0 26).toNat < 2 ^ 32 := (w.extractLsb' 0 26).isLt.trans (by decide)
  rw [jumpIndex, targetField, bitField, BitVec.toNat_ofNat, Nat.mod_eq_of_lt hfits]

/-- The fetch after a jump to a word's target field reads memory there. -/
theorem State.fetch_setPc_jumpIndex (s : State) (w : Word) :
    (s.setPc (jumpIndex (targetField w))).fetch = s.pmem.read (w.extractLsb' 0 26).toNat := by
  rw [State.fetch, State.setPc_pmem, State.setPc_pc, toNat_jumpIndex_targetField]

/-- Settles O39: the word decodes to a J, whose step sets `pc` to the target field, and the next fetch reads there. -/
theorem stepAfterAJumpFetchesAtTheTarget : Obligations.StepAfterAJumpFetchesAtTheTarget := by
  intro s w hloaded hfetch hj
  have hstep : step s = .next (s.setPc (jumpIndex (targetField w))) :=
    step_eq_next.mpr ⟨hloaded, w, .j (targetField w), hfetch, decodeWord_of_primary_j hj, rfl⟩
  obtain ⟨hslots, hhilo, hmem⟩ := s.setPc_frame (jumpIndex (targetField w))
  exact ⟨_, hstep, hslots, hhilo, hmem, s.fetch_setPc_jumpIndex w⟩

end Sys2Proof.Machine
end

section
/-! PROOFS. The invariant (notes/assumptions/12.md, 13.md): every register write keeps the stored zero of a hard-wired slot 0,
and memory changes at a load only. -/

namespace Sys2Proof.Machine

/-- The invariant looks at memory, the slots and the configuration only. -/
theorem State.Inv.congr {s t : State} (h : s.Inv) (hmem : t.pmem = s.pmem) (hx : t.x = s.x) (hcfg : t.cfg = s.cfg) :
    t.Inv := by
  simpa only [State.Inv, hmem, hx, hcfg] using h

/-- A hard-wired slot 0 is not written, and a write to another slot leaves slot 0 alone (10_state.md R24). -/
theorem State.Inv.writeSlot {s : State} (h : s.Inv) (i : Slot) (v : Word) : (s.writeSlot i v).Inv := by
  obtain ⟨hmem, hzero⟩ := h
  refine ⟨hmem, fun hwired => ?_⟩
  by_cases hi : i = 0
  · have hdiscard : s.isWiredZero i = true := by simp_all [State.isWiredZero]
    simpa only [State.writeSlot_x_wired s v hdiscard] using hzero hwired
  · have hother : s.isWiredZero i = false := by simp [State.isWiredZero, hi]
    have hne : i.val ≠ 0 := fun e => hi (Fin.ext e)
    simpa [State.writeSlot, hother, hne] using hzero hwired

theorem State.Inv.writeReg {s : State} (h : s.Inv) (r : RegId) (v : Word) : (s.writeReg r v).Inv := by
  cases r with
  | gpr i => exact h.writeSlot i v
  | pc => exact h
  | hi => exact h
  | lo => exact h

theorem State.Inv.writeRegs {s : State} (h : s.Inv) (writes : List (RegId × Word)) : (s.writeRegs writes).Inv := by
  induction writes generalizing s with
  | nil => exact h
  | cons rv rest ih => exact ih (h.writeReg rv.1 rv.2)

theorem State.Inv.afterHook {s : State} (h : s.Inv) (writes : List (RegId × Word)) : (s.afterHook writes).Inv := by
  unfold State.afterHook
  split
  · exact h.writeRegs writes
  · exact (h.writeRegs writes).congr rfl rfl rfl

/-- Every shape of an instruction's effect keeps the invariant. -/
theorem State.Inv.exec {i : Instr} {s t : State} (h : s.Inv) (hexec : exec i s = .next t) : t.Inv := by
  obtain ⟨rd, v, rfl⟩ | ⟨hi, lo, rfl⟩ | ⟨target, -, rfl⟩ | ⟨writes, -, rfl⟩ := exec_next_shape hexec
  · exact (h.writeSlot rd v).congr rfl rfl rfl
  · exact h.congr rfl rfl rfl
  · exact h.congr rfl rfl rfl
  · exact h.afterHook writes

theorem State.Inv.step {s t : State} (h : s.Inv) (hstep : step s = .next t) : t.Inv := by
  obtain ⟨-, w, i, -, -, hexec⟩ := step_eq_next.mp hstep
  exact h.exec hexec

/-- Settles O19: a step's effect is one of the instruction shapes, and each keeps the invariant. -/
theorem stepKeepsTheInvariant : Obligations.StepKeepsTheInvariant := fun _ _ => State.Inv.step

/-- A machine just constructed meets the invariant under every configuration (10_state.md R41). -/
theorem State.new_inv (cfg : Config EngineState) : (State.new cfg).Inv :=
  ⟨Memory.empty_wf, fun _ => by simp [State.new]⟩

/-- A load of an image that fits keeps the invariant: it starts from a cleared machine (70_reset_and_hazards.md R233). -/
theorem State.Inv.load {s : State} (h : s.Inv) {a : Assembly} (fits : a.wf = true) : (s.load a).Inv := by
  obtain ⟨-, hzero⟩ := State.new_inv s.cfg
  cases a with
  | unreadable => exact h
  | failed words e => exact ⟨Memory.ofWords_wf (of_decide_eq_true fits), hzero⟩
  | assembled words main => exact ⟨Memory.ofWords_wf (of_decide_eq_true fits).1, hzero⟩

theorem State.Inv.afterHost {s : State} (h : s.Inv) {act : HostAction} (fits : ∀ a, act = .load a → a.wf = true) :
    (s.afterHost act).Inv := by
  cases act with
  | new => exact State.new_inv s.cfg
  | load a => exact h.load (fits a rfl)
  | inject r v => exact h.writeReg r v
  | displayRegister r => exact h
  | dumpProgram => exact h

/-- Settles O20, by induction on the session: a step keeps the invariant, and so does each host operation. -/
theorem sessionsKeepTheInvariant : Obligations.SessionsKeepTheInvariant := by
  intro s t h run
  induction run with
  | refl => exact h
  | step _ last ih => exact ih.step last
  | host _ act fits ih => exact ih.afterHost fits

/-- Settles O18: reset is the construction with the default configuration. -/
theorem resetMeetsTheInvariant : Obligations.ResetMeetsTheInvariant := State.new_inv Config.default

end Sys2Proof.Machine
end

section
/-! PROOFS. Fields and masks (30_encoding.md R82): the other fields of a composed word, and a field as a mask of the word. -/

namespace Sys2Proof

/-- No R-type selector has a bit in the shift count's field (30_encoding.md R82, R92). -/
theorem shamtField_sel (o : Opcode) : bitField o.sel 6 5 = 0#5 := by cases o <;> decide

/-- Of the parts of an R-type word, the shift count's field sees the count alone. -/
theorem shamtField_encodeR (o : Opcode) (rs rt rd : Slot) {n : Nat} (h : n < 32) :
    shamtField (encodeR o rs rt rd n) = n := by
  have hsel := shamtField_sel o
  simp (disch := omega) only [shamtField, encodeR, bitField_or, hsel, bitField_atBit_same, bitField_atBit_apart,
    BitVec.or_zero, BitVec.zero_or, BitVec.toNat_ofNat, Nat.mod_eq_of_lt]

/-- The fields of an I-type word are its three operands. -/
theorem fields_encodeI (rs rt : Slot) (imm : BitVec 16) :
    rsField (encodeI .ori rs rt imm) = rs ∧ rtField (encodeI .ori rs rt imm) = rt ∧
      immField (encodeI .ori rs rt imm) = imm := by
  obtain ⟨hsel21, hsel16, -⟩ := registerFields_sel .ori
  have hsel0 : bitField Opcode.ori.sel 0 16 = 0#16 := by decide
  have himm : imm.setWidth 32 = atBit imm.toNat 0 := by
    rw [atBit, BitVec.shiftLeft_zero, BitVec.ofNat_toNat]
  have hrs := rs.isLt
  have hrt := rt.isLt
  have hfit := imm.isLt
  have hslot (r : Slot) : (BitVec.ofNat 5 r.val).toFin = r := Fin.ext (Nat.mod_eq_of_lt r.isLt)
  simp (disch := omega) only [rsField, rtField, immField, encodeI, himm, bitField_or, hsel21, hsel16, hsel0,
    bitField_atBit_same, bitField_atBit_apart, BitVec.or_zero, BitVec.zero_or, hslot, BitVec.ofNat_toNat,
    BitVec.setWidth_eq, and_self]

/-- The target field of a J-type word is its target. -/
theorem targetField_encodeJ {target : Nat} (h : target < 2 ^ 26) : targetField (encodeJ .j target) = target := by
  have hsel : bitField Opcode.j.sel 0 26 = 0#26 := by decide
  simp (disch := omega) only [targetField, encodeJ, bitField_or, hsel, bitField_atBit_same, BitVec.zero_or,
    BitVec.toNat_ofNat, Nat.mod_eq_of_lt]

end Sys2Proof
end

section
/-! PROOFS. Decode and encode (30_encoding.md R88, R100, R101): the operands of an encoding read back, and encoding what was
decoded gives the word's used bits. -/

namespace Sys2Proof.Machine

/-- The operands read from the word of a well-formed instruction are its own. -/
theorem assemble_encode {i : Instr} (h : i.wellFormed = true) : i.opcode.assemble (encode i) = i := by
  have reg (o : Opcode) (rs rt rd : Slot) := registerFields_encodeR o rs rt rd (n := 0) (by decide)
  cases i with
  | sll rd rt n | srl rd rt n | sra rd rt n =>
    have hn : n < 32 := of_decide_eq_true h
    have fields (o : Opcode) := registerFields_encodeR o 0 rt rd hn
    simp only [encode, Instr.opcode, Opcode.assemble, fields, shamtField_encodeR _ 0 rt rd hn]
  | syscall => rfl
  | mfhi r | mthi r | mflo r | mtlo r | mult r q | multu r q | div r q | divu r q | add p r q | sub p r q | and p r q
  | or p r q | xor p r q | slt p r q => simp only [encode, Instr.opcode, Opcode.assemble, reg]
  | j target =>
    simp only [encode, Instr.opcode, Opcode.assemble, targetField_encodeJ (of_decide_eq_true h)]
  | ori rt rs imm => simp only [encode, Instr.opcode, Opcode.assemble, fields_encodeI]

/-- The word of a well-formed instruction selects its catalog entry, one case per instruction. -/
theorem selector_encode {i : Instr} (h : i.wellFormed = true) : selector (encode i) = i.opcode.sel := by
  cases i with
  | sll rd rt n => exact Laws.EncodedSelector.sll rd rt n h
  | srl rd rt n => exact Laws.EncodedSelector.srl rd rt n h
  | sra rd rt n => exact Laws.EncodedSelector.sra rd rt n h
  | syscall => exact Laws.EncodedSelector.syscall h
  | mfhi rd => exact Laws.EncodedSelector.mfhi rd h
  | mthi rs => exact Laws.EncodedSelector.mthi rs h
  | mflo rd => exact Laws.EncodedSelector.mflo rd h
  | mtlo rs => exact Laws.EncodedSelector.mtlo rs h
  | mult rs rt => exact Laws.EncodedSelector.mult rs rt h
  | multu rs rt => exact Laws.EncodedSelector.multu rs rt h
  | div rs rt => exact Laws.EncodedSelector.div rs rt h
  | divu rs rt => exact Laws.EncodedSelector.divu rs rt h
  | add rd rs rt => exact Laws.EncodedSelector.add rd rs rt h
  | sub rd rs rt => exact Laws.EncodedSelector.sub rd rs rt h
  | and rd rs rt => exact Laws.EncodedSelector.and rd rs rt h
  | or rd rs rt => exact Laws.EncodedSelector.or rd rs rt h
  | xor rd rs rt => exact Laws.EncodedSelector.xor rd rs rt h
  | slt rd rs rt => exact Laws.EncodedSelector.slt rd rs rt h
  | j target => exact Laws.EncodedSelector.j target h
  | ori rt rs imm => exact Laws.EncodedSelector.ori rt rs imm h

/-- Settles O26: the encoding selects the instruction's entry, and the operands read back. -/
theorem decodeOfEncodeIsTheInstruction : Obligations.DecodeOfEncodeIsTheInstruction := by
  intro i h
  rw [decodeWord_of_selector (selector_encode h), assemble_encode h]

/-- What is assembled from a word fits its fields. -/
theorem wellFormed_assemble (o : Opcode) (w : Word) : (o.assemble w).wellFormed = true := by
  have hshamt : decide (shamtField w < 32) = true := decide_eq_true (bitField w 6 5).isLt
  have htarget : decide (targetField w < 2 ^ 26) = true := decide_eq_true (bitField w 0 26).isLt
  cases o with
  | sll | srl | sra => exact hshamt
  | j => exact htarget
  | _ => rfl

/-- A field under a mask that keeps all of it. -/
theorem bitField_and_of_kept {w mask : Word} {lo width : Nat} (h : bitField mask lo width = BitVec.allOnes width) :
    bitField (w &&& mask) lo width = bitField w lo width := by
  unfold bitField at h ⊢
  rw [BitVec.extractLsb'_and, h, BitVec.and_allOnes]

/-- An entry's operands depend on the bits it uses alone (30_encoding.md R88). -/
theorem assemble_and_usedMask (o : Opcode) (w : Word) : o.assemble (w &&& usedMask o) = o.assemble w := by
  cases o <;>
    simp (disch := decide) only [usedMask, Opcode.assemble, rsField, rtField, rdField, shamtField, immField, targetField,
      bitField_and_of_kept]

/-- The used bits of an entry hold both selector fields. -/
theorem selector_and_usedMask (o : Opcode) (w : Word) : selector (w &&& usedMask o) = selector w := by
  have hkept : usedMask o &&& 0xFC00003F#32 = 0xFC00003F#32 := by cases o <;> decide
  exact selector_eq_of_and_eq (by rw [BitVec.and_assoc, hkept])

/-- A field put back at its place is the word under the field's mask. -/
theorem atBit_bitField (w : Word) (lo width : Nat) :
    atBit (bitField w lo width).toNat lo = w &&& (BitVec.allOnes width).setWidth 32 <<< lo := by
  rw [atBit, BitVec.ofNat_toNat]
  apply BitVec.eq_of_getLsbD_eq
  intro k hk
  by_cases hlow : k < lo
  · simp [hlow]
  · by_cases hfield : k - lo < width
    · have hback : lo + (k - lo) = k := by omega
      simp [bitField, hlow, hk, hfield, hback]
    · simp [bitField, hlow, hk, hfield]

/-- The lowest field, widened, is the word under the field's mask. -/
theorem setWidth_bitField_zero (w : Word) (width : Nat) :
    (bitField w 0 width).setWidth 32 = w &&& (BitVec.allOnes width).setWidth 32 := by
  have h := atBit_bitField w 0 width
  rwa [atBit, BitVec.ofNat_toNat, BitVec.shiftLeft_zero, BitVec.shiftLeft_zero] at h

/-- An entry is a word's own exactly when the word, under the row's mask, is the row's match (30_encoding.md R86, R92). -/
theorem and_rowMask_eq_sel_iff (o : Opcode) (w : Word) : w &&& rowMask o = o.sel ↔ selector w = o.sel := by
  have hrow : (rowMask o = 0xFC000000#32 ∧ o.sel &&& 0xFC000000#32 = o.sel ∧ o.sel ≠ 0#32) ∨
      (rowMask o = 0xFC00003F#32 ∧ o.sel &&& 0xFC000000#32 = 0#32 ∧ o.sel &&& 0xFC00003F#32 = o.sel) := by
    cases o <;> decide
  have hsplit : w &&& 0xFC00003F#32 = w &&& 0xFC000000#32 ||| w &&& 0x3F#32 := by
    rw [← BitVec.and_or_distrib_left]; rfl
  have hlow : w &&& 0x3F#32 &&& 0xFC000000#32 = 0#32 := by
    rw [BitVec.and_assoc]; exact BitVec.and_zero
  rcases hrow with ⟨hmask, hprimary, hne⟩ | ⟨hmask, hprimary, hself⟩
  · rw [hmask]
    by_cases hw : w &&& 0xFC000000#32 = 0#32
    · rw [selector_of_primary_zero hw, hw]
      refine ⟨fun h => absurd h.symm hne, fun h => absurd ?_ hne⟩
      rw [← hprimary, ← h, hlow]
    · rw [selector_of_primary hw]
  · rw [hmask]
    constructor
    · intro h
      rw [← selector_sel o]
      exact selector_eq_of_and_eq (h.trans hself.symm)
    · intro h
      by_cases hw : w &&& 0xFC000000#32 = 0#32
      · rw [hsplit, hw, BitVec.zero_or, ← selector_of_primary_zero hw, h]
      · rw [selector_of_primary hw] at h
        rw [← h, BitVec.and_assoc, BitVec.and_self] at hprimary
        exact absurd hprimary hw

/-! Each field put back is the word under that field's mask of 30_encoding.md R82; an unused field puts back nothing. -/

theorem atBit_rsField (w : Word) : atBit (rsField w) 21 = w &&& 0x03E00000#32 := atBit_bitField w _ _
theorem atBit_rtField (w : Word) : atBit (rtField w) 16 = w &&& 0x001F0000#32 := atBit_bitField w _ _
theorem atBit_rdField (w : Word) : atBit (rdField w) 11 = w &&& 0x0000F800#32 := atBit_bitField w _ _
theorem atBit_shamtField (w : Word) : atBit (shamtField w) 6 = w &&& 0x000007C0#32 := atBit_bitField w _ _
theorem atBit_targetField (w : Word) : atBit (targetField w) 0 = w &&& 0x03FFFFFF#32 := atBit_bitField w _ _
theorem setWidth_immField (w : Word) : (immField w).setWidth 32 = w &&& 0x0000FFFF#32 :=
  setWidth_bitField_zero w 16
theorem atBit_slot_zero (lo : Nat) : atBit (0 : Slot) lo = 0#32 := BitVec.zero_shiftLeft lo
theorem atBit_zero (lo : Nat) : atBit 0 lo = 0#32 := BitVec.zero_shiftLeft lo

/-- Encoding what an entry assembles from a word gives the word's used bits, when the entry is the word's. -/
theorem encode_assemble {o : Opcode} {w : Word} (h : selector w = o.sel) : encode (o.assemble w) = w &&& usedMask o := by
  rw [← and_rowMask_eq_sel_iff] at h
  cases o <;>
    simp only [Opcode.assemble, encode, encodeR, encodeI, encodeJ, ← h, atBit_rsField, atBit_rtField, atBit_rdField,
      atBit_shamtField, atBit_targetField, setWidth_immField, atBit_slot_zero, atBit_zero, BitVec.or_zero,
      ← BitVec.and_or_distrib_left] <;>
    rfl

/-- Settles O27: decoding keeps the used bits, and the used bits settle both the selector and the operands. -/
theorem decodingReadsExactlyTheUsedBits : Obligations.DecodingReadsExactlyTheUsedBits := by
  intro w i
  constructor
  · intro h
    obtain ⟨o, hsel, rfl⟩ := decodeWord_eq_ok h
    rw [Opcode.opcode_assemble, encode_assemble hsel]
    exact ⟨wellFormed_assemble o w, rfl⟩
  · rintro ⟨hwf, hword⟩
    have hsel : selector w = i.opcode.sel := by
      rw [← selector_and_usedMask i.opcode w, hword, selector_encode hwf]
    rw [decodeWord_of_selector hsel, ← assemble_and_usedMask, hword, assemble_encode hwf]

end Sys2Proof.Machine
end

section
/-! PROOFS. The rows of the catalog (30_encoding.md R92, R95, R102), by mask and match and by primary and function field. -/

namespace Sys2Proof.Machine

/-- No two entries share a selector. -/
theorem sel_injective {o p : Opcode} (h : o.sel = p.sel) : o = p := by
  have hfound : some o = some p := by rw [← Opcode.ofSel_sel o, ← Opcode.ofSel_sel p, h]
  exact Option.some.inj hfound

/-- The decoder answers with an entry exactly for the words of its selector. -/
theorem selector_eq_sel_iff (w : Word) (o : Opcode) :
    selector w = o.sel ↔ ∃ i, decodeWord w = .ok i ∧ i.opcode = o := by
  constructor
  · exact fun h => ⟨_, decodeWord_of_selector h, o.opcode_assemble w⟩
  · rintro ⟨i, hd, rfl⟩
    exact (sel_opcode_of_decodeWord hd).symm

/-- The decoder rejects exactly the words whose selector is no entry's. -/
theorem decodeWord_eq_error_iff (w : Word) : (∃ e, decodeWord w = .error e) ↔ ∀ o : Opcode, selector w ≠ o.sel := by
  cases hd : decodeWord w with
  | error e =>
    refine ⟨fun _ o h => ?_, fun _ => ⟨e, rfl⟩⟩
    rw [decodeWord_of_selector h] at hd
    cases hd
  | ok i =>
    constructor
    · rintro ⟨e, h⟩
      cases h
    · exact fun h => absurd (sel_opcode_of_decodeWord hd).symm (h i.opcode)

/-- Settles O25: mask and match pick out the words of the entry's selector, and selectors are distinct. -/
theorem rowsAreSelectedByMaskAndMatch : Obligations.RowsAreSelectedByMaskAndMatch := by
  refine ⟨fun w o => ?_, fun w o p ho hp => ?_, fun w => ?_⟩
  · rw [and_rowMask_eq_sel_iff, selector_eq_sel_iff]
  · rw [and_rowMask_eq_sel_iff] at ho hp
    exact sel_injective (ho.symm.trans hp)
  · simp only [ne_eq, and_rowMask_eq_sel_iff, decodeWord_eq_error_iff]

/-- Settles O28: each listed word is evaluated. -/
theorem specWordsDecodeAsListed : Obligations.SpecWordsDecodeAsListed := by
  unfold Obligations.SpecWordsDecodeAsListed
  repeat' constructor

/-! ### Primary and function field -/

/-- The selector's second mask keeps the function field (30_encoding.md R86). -/
theorem and_functionMask (w : Word) : w &&& 0x3F#32 = (bitField w 0 6).setWidth 32 :=
  (setWidth_bitField_zero w 6).symm

/-- The primary field is zero exactly when the selector's first mask leaves nothing. -/
theorem primary_eq_zero_iff (w : Word) : bitField w 26 6 = 0#6 ↔ w &&& 0xFC000000#32 = 0#32 := by
  constructor
  · intro h
    rw [and_primaryMask, h]
    rfl
  · intro h
    rw [← bitField_and_of_kept (mask := 0xFC000000#32) (by decide), h]
    decide

/-- A word of primary field zero has its function field as selector. -/
theorem selector_of_primaryField_zero {w : Word} (h : bitField w 26 6 = 0#6) :
    selector w = (bitField w 0 6).setWidth 32 := by
  rw [selector_of_primary_zero ((primary_eq_zero_iff w).mp h), and_functionMask]

/-- Any other word has its primary field, kept in place, as selector. -/
theorem selector_of_primaryField {w : Word} (h : bitField w 26 6 ≠ 0#6) :
    selector w = (bitField w 26 6).setWidth 32 <<< 26 := by
  rw [selector_of_primary fun hw => h ((primary_eq_zero_iff w).mpr hw), and_primaryMask]

/-- A word's selector is a function code exactly when it has that function (30_encoding.md R86). -/
theorem hasFunction_iff (w : Word) (f : BitVec 6) : HasFunction w f ↔ selector w = f.setWidth 32 := by
  have hinj : ∀ g : BitVec 6, (g.setWidth 32).setWidth 6 = g := fun g => by simp
  have hapart : ∀ g : BitVec 6, g.setWidth 32 &&& 0xFC000000#32 = 0#32 := by decide
  by_cases hw : bitField w 26 6 = 0#6
  · rw [selector_of_primaryField_zero hw]
    refine ⟨fun ⟨_, h⟩ => congrArg (·.setWidth 32) h, fun h => ⟨hw, ?_⟩⟩
    have hnarrow := congrArg (·.setWidth 6) h
    rwa [hinj, hinj] at hnarrow
  · refine ⟨fun ⟨h, _⟩ => absurd h hw, fun h => absurd ((primary_eq_zero_iff w).mpr ?_) hw⟩
    rw [selector_of_primary fun hz => hw ((primary_eq_zero_iff w).mpr hz)] at h
    rw [← hapart f, ← h, BitVec.and_assoc, BitVec.and_self]

/-- The numbers of 30_encoding.md R95 are the selectors that name no entry. -/
theorem ofSel_selector_eq_none_iff (w : Word) :
    Opcode.ofSel (selector w) = none ↔
      (bitField w 26 6 = 0#6 ∧ bitField w 0 6 ∉ knownFunctions) ∨
      (bitField w 26 6 ≠ 0#6 ∧ bitField w 26 6 ≠ 0x02#6 ∧ bitField w 26 6 ≠ 0x0D#6) := by
  have hfunction : ∀ f : BitVec 6, Opcode.ofSel (f.setWidth 32) = none ↔ f ∉ knownFunctions := by decide
  have hprimary : ∀ p : BitVec 6, p ≠ 0#6 →
      (Opcode.ofSel (p.setWidth 32 <<< 26) = none ↔ p ≠ 0x02#6 ∧ p ≠ 0x0D#6) := by decide
  by_cases hw : bitField w 26 6 = 0#6
  · rw [selector_of_primaryField_zero hw, hfunction]
    simp [hw]
  · rw [selector_of_primaryField hw, hprimary _ hw]
    simp [hw]

/-- An unknown instruction is one the decoder rejects, or one of selector 0 where that is not SLL (30_encoding.md R94). -/
theorem isUnknown_iff (cfg : Config EngineState) (w : Word) :
    IsUnknown cfg w ↔ Opcode.ofSel (selector w) = none ∨ (selector w = Opcode.sll.sel ∧ cfg.sel0IsSll = false) := by
  have hsll : selector w = Opcode.sll.sel ↔ bitField w 26 6 = 0#6 ∧ bitField w 0 6 = 0#6 := (hasFunction_iff w 0#6).symm
  rw [ofSel_selector_eq_none_iff, hsll]
  unfold IsUnknown
  simp only [bitField]
  tauto

end Sys2Proof.Machine
end

section
/-! PROOFS. What an instruction answers (60_exceptions.md R201): the causes of its errors, and that every other time it goes
on. -/

namespace Sys2Proof.Machine

/-- The causes of `NotImplemented`, instruction by instruction (44_system.md R170; 45_hilo.md R180, R192). -/
def Unimplemented (s : State) : Instr → Prop
  | .syscall =>
    s.cfg.syscallHook = none ∨ ∃ h, s.cfg.syscallHook = some h ∧ hookAnswer h s.toEngineState = .notImplemented
  | .mfhi _ | .mthi _ | .mflo _ | .mtlo _ | .mult _ _ | .multu _ _ => s.cfg.hiloFamily = .stub
  | .div _ rt | .divu _ rt => s.cfg.hiloFamily = .stub ∨ (s.cfg.hiloFamily = .full ∧ s.readSlot rt = 0#32)
  | _ => False

/-- An SLL where selector 0 has no handler (30_encoding.md R94). -/
def Unhandled (s : State) (i : Instr) : Prop := i.opcode = .sll ∧ s.cfg.sel0IsSll = false

theorem whenHiloFull_of_stub {s : State} (h : s.cfg.hiloFamily = .stub) (r : StepResult) :
    whenHiloFull s r = raiseNotImplemented s := by
  simp [whenHiloFull, h]

theorem whenHiloFull_of_full {s : State} (h : s.cfg.hiloFamily = .full) (r : StepResult) : whenHiloFull s r = r := by
  simp [whenHiloFull, h]

theorem whenDivisorNonzero_of_zero (s : State) (r : StepResult) :
    whenDivisorNonzero 0#32 s r = raiseNotImplemented s := if_pos rfl

theorem whenDivisorNonzero_of_ne {b : Word} (h : b ≠ 0#32) (s : State) (r : StepResult) :
    whenDivisorNonzero b s r = r := if_neg h

theorem hiloFamily_eq_full_of_ne {f : HiloFamily} (h : f ≠ .stub) : f = .full := by
  cases f with
  | stub => exact absurd rfl h
  | full => rfl

/-- SYSCALL by its hook's answer. -/
theorem execSyscall_of_no_hook {s : State} (h : s.cfg.syscallHook = none) : execSyscall s = raiseNotImplemented s := by
  simp [execSyscall, h]

theorem execSyscall_of_declined {s : State} {h : SyscallHook EngineState} (hs : s.cfg.syscallHook = some h)
    (ha : hookAnswer h s.toEngineState = .notImplemented) : execSyscall s = raiseNotImplemented s := by
  simp [execSyscall, hs, ha]

/-- An SLL without a handler is an unknown instruction. -/
theorem exec_of_unhandled {s : State} {i : Instr} (h : Unhandled s i) :
    exec i s = raiseUnknownInstruction s.instrWord := by
  obtain ⟨hop, hcfg⟩ := h
  cases i with
  | sll rd rt n => simp [exec, execSll, hcfg]
  | _ => cases hop

/-- Each listed cause gives `NotImplemented`. -/
theorem exec_of_unimplemented {s : State} {i : Instr} (h : Unimplemented s i) : exec i s = raiseNotImplemented s := by
  cases i with
  | syscall =>
    obtain hnone | ⟨hook, hsome, hanswer⟩ := h
    · exact execSyscall_of_no_hook hnone
    · exact execSyscall_of_declined hsome hanswer
  | mfhi _ | mthi _ | mflo _ | mtlo _ | mult _ _ | multu _ _ => exact whenHiloFull_of_stub h _
  | div _ rt | divu _ rt =>
    obtain hstub | ⟨hfull, hzero⟩ := h
    · exact whenHiloFull_of_stub hstub _
    · simp only [exec, execDiv, execDivu, whenHiloFull_of_full hfull, hzero, whenDivisorNonzero_of_zero]
  | _ => exact h.elim

/-- With no cause to stop, an instruction goes on. -/
theorem exec_next_of_no_cause {s : State} {i : Instr} (hhandled : ¬ Unhandled s i) (himpl : ¬ Unimplemented s i) :
    ∃ t, exec i s = .next t := by
  cases i with
  | sll rd rt n =>
    have hsll : s.cfg.sel0IsSll = true := by simpa [Unhandled, Instr.opcode] using hhandled
    exact ⟨_, if_pos hsll⟩
  | syscall =>
    obtain ⟨hsome, hanswer⟩ := not_or.mp himpl
    obtain ⟨hook, hhook⟩ := Option.ne_none_iff_exists'.mp hsome
    cases ha : hookAnswer hook s.toEngineState with
    | notImplemented => exact absurd ⟨hook, hhook, ha⟩ hanswer
    | ok writes => exact ⟨_, execSyscall_eq_next.mpr ⟨hook, writes, hhook, ha, rfl⟩⟩
  | mfhi _ | mthi _ | mflo _ | mtlo _ | mult _ _ | multu _ _ =>
    exact ⟨_, whenHiloFull_of_full (hiloFamily_eq_full_of_ne himpl) _⟩
  | div _ rt | divu _ rt =>
    obtain ⟨hstub, hdivisor⟩ := not_or.mp himpl
    have hfull := hiloFamily_eq_full_of_ne hstub
    have hne : s.readSlot rt ≠ 0#32 := fun hzero => hdivisor ⟨hfull, hzero⟩
    exact ⟨_, (whenHiloFull_of_full hfull _).trans (whenDivisorNonzero_of_ne hne s _)⟩
  | _ => exact ⟨_, rfl⟩

end Sys2Proof.Machine
end

section
/-! PROOFS. The step of a loaded machine (70_reset_and_hazards.md R236, R238; 60_exceptions.md R201): which word it fetches,
and when it stops with which error. -/

namespace Sys2Proof.Machine

/-- A loaded machine's step on a word of the catalog is the meaning of its instruction. -/
theorem step_of_decode {s : State} {w : Word} {i : Instr} (hl : s.loaded = true) (hf : s.fetch = some w)
    (hd : decodeWord w = .ok i) : step s = exec i s := by
  simp [step, runAtPc, runWord, hl, hf, hd]

theorem step_of_not_loaded {s : State} (h : s.loaded = false) : step s = .refused .notLoaded := by
  simp [step, h]

/-- Settles O7: the word fetched is the word at `pc`. -/
theorem stepRunsTheDecodedInstruction : Obligations.StepRunsTheDecodedInstruction :=
  fun _ _ _ hl hf hd => step_of_decode hl hf hd

/-- A loaded machine's step is never refused: it is an error of the fetch or an instruction's answer. -/
theorem step_ne_refused {s : State} (hl : s.loaded = true) (r : Refusal) : step s ≠ .refused r := by
  cases hf : s.fetch with
  | none => simp [step_of_fetch_none hl hf, raiseUnknownInstruction]
  | some w =>
    cases hd : decodeWord w with
    | error e => simp [step_of_decode_error hl hf hd, raiseUnknownInstruction]
    | ok i =>
      rw [step_of_decode hl hf hd]
      exact exec_ne_refused i s r

/-- Settles O5: without a load a step is refused at once, and with one it never is. -/
theorem stepIsRefusedExactlyWithoutALoad : Obligations.StepIsRefusedExactlyWithoutALoad := by
  refine fun s => ⟨step_of_not_loaded, fun ⟨r, hr⟩ => ?_⟩
  by_contra hl
  exact step_ne_refused (Bool.not_eq_false _ ▸ hl) r hr

/-- At or past the end of memory there is nothing to fetch (20_memory.md R55). -/
theorem step_past_end {s : State} (hl : s.loaded = true) (hend : s.pmem.size ≤ s.pc.toNat) :
    step s = .fault (.unknownInstruction 0#32) :=
  step_of_fetch_none hl ((s.pmem.read_eq_none_iff _).mpr hend)

/-- Settles O9: there is no word to fetch. -/
theorem stepPastTheEndIsUnknown : Obligations.StepPastTheEndIsUnknown :=
  fun _ hl hend => ⟨_, step_past_end hl hend⟩

/-- Settles O8: the word placed at `pc` is the one the next step reads. -/
theorem withFetchWordRunsTheInstruction : Obligations.WithFetchWordRunsTheInstruction := by
  intro s w i hwf hw hd
  have hdecode : decodeWord (BitVec.ofNat 32 (w % 2 ^ 32)) = .ok i := by
    unfold decodeTableWord at hd
    cases h : decodeWord (BitVec.ofNat 32 (w % 2 ^ 32)) with
    | error e => rw [h] at hd; cases hd
    | ok k => rw [h] at hd; exact congrArg _ (Option.some.inj hd)
  exact step_of_decode rfl (Memory.read_place_same hwf _ _) hdecode

/-- An unknown instruction, in the numbers of R95, is one that the decoder rejects or that its entry does not handle. -/
theorem isUnknown_of_entry {s : State} {w : Word} {o : Opcode} (h : selector w = o.sel) :
    IsUnknown s.cfg w ↔ Unhandled s (o.assemble w) := by
  have hsll : o.sel = Opcode.sll.sel ↔ o = .sll := ⟨sel_injective, congrArg _⟩
  rw [isUnknown_iff, h, Opcode.ofSel_sel, hsll, Unhandled, Opcode.opcode_assemble]
  simp

/-- The listed causes of `NotImplemented`, in the numbers of R201, are the instruction's own. -/
theorem isNotImplemented_of_entry {s : State} {w : Word} {o : Opcode} (h : selector w = o.sel) :
    IsNotImplemented s w ↔ Unimplemented s (o.assemble w) := by
  have hcode (f : BitVec 6) : HasFunction w f ↔ o.sel = f.setWidth 32 := by rw [hasFunction_iff, h]
  unfold IsNotImplemented IsHilo
  cases o <;> simp [hcode, Opcode.sel, Opcode.assemble, Unimplemented]

/-- A function code of R95 is an entry's. -/
theorem entry_of_hasFunction {w : Word} {f : BitVec 6} (h : HasFunction w f) (known : f ∈ knownFunctions) :
    ∃ o : Opcode, selector w = o.sel := by
  obtain ⟨hprimary, hfunction⟩ := h
  have hsome : Opcode.ofSel (selector w) ≠ none := by
    rw [ne_eq, ofSel_selector_eq_none_iff]
    simp [bitField, hprimary, hfunction, known]
  obtain ⟨o, ho⟩ := Option.ne_none_iff_exists'.mp hsome
  exact ⟨o, (Opcode.sel_of_ofSel ho).symm⟩

/-- Every listed cause is one of a catalog entry. -/
theorem entry_of_isNotImplemented {s : State} {w : Word} (h : IsNotImplemented s w) : ∃ o : Opcode, selector w = o.sel := by
  have hhilo : ∀ f ∈ [0x10#6, 0x11#6, 0x12#6, 0x13#6, 0x18#6, 0x19#6, 0x1A#6, 0x1B#6], f ∈ knownFunctions := by decide
  obtain ⟨hf, -⟩ | ⟨hf, -⟩ | ⟨⟨f, hmem, hf⟩, -⟩ | ⟨hf | hf, -⟩ := h
  · exact entry_of_hasFunction hf (by decide)
  · exact entry_of_hasFunction hf (by decide)
  · exact entry_of_hasFunction hf (hhilo f hmem)
  · exact entry_of_hasFunction hf (by decide)
  · exact entry_of_hasFunction hf (by decide)

/-- Every word is one of a catalog entry, or the decoder rejects it and it is unknown under every configuration. -/
theorem entry_or_rejected (w : Word) :
    (∃ o : Opcode, selector w = o.sel) ∨
      ((∃ e, decodeWord w = .error e) ∧ ∀ cfg, IsUnknown cfg w) := by
  cases ho : Opcode.ofSel (selector w) with
  | some o => exact .inl ⟨o, (Opcode.sel_of_ofSel ho).symm⟩
  | none =>
    refine .inr ⟨(decodeWord_eq_error_iff w).mpr fun o h => ?_, fun cfg => (isUnknown_iff cfg w).mpr (.inl ho)⟩
    rw [h, Opcode.ofSel_sel] at ho
    cases ho

section
variable {s : State} {w : Word} (hl : s.loaded = true) (hf : s.fetch = some w)
include hl hf

/-- A step on an unknown instruction stops with its word (60_exceptions.md R202). -/
theorem step_of_isUnknown (h : IsUnknown s.cfg w) : step s = .fault (.unknownInstruction w) := by
  rcases entry_or_rejected w with ⟨o, hsel⟩ | ⟨⟨e, hd⟩, -⟩
  · rw [step_of_decode hl hf (decodeWord_of_selector hsel), exec_of_unhandled ((isUnknown_of_entry hsel).mp h),
      State.instrWord_of_fetch hf, raiseUnknownInstruction]
  · rw [step_of_decode_error hl hf hd, raiseUnknownInstruction]

/-- A step with a listed cause of `NotImplemented` stops with its word (60_exceptions.md R203). -/
theorem step_of_isNotImplemented (h : IsNotImplemented s w) : step s = .fault (.notImplemented w) := by
  obtain ⟨o, hsel⟩ := entry_of_isNotImplemented h
  rw [step_of_decode hl hf (decodeWord_of_selector hsel),
    exec_of_unimplemented ((isNotImplemented_of_entry hsel).mp h), raiseNotImplemented, State.instrWord_of_fetch hf]

/-- Every other step goes on. -/
theorem step_next_of_no_cause (hunknown : ¬ IsUnknown s.cfg w) (himpl : ¬ IsNotImplemented s w) :
    ∃ t, step s = .next t := by
  rcases entry_or_rejected w with ⟨o, hsel⟩ | ⟨-, hrejected⟩
  · rw [step_of_decode hl hf (decodeWord_of_selector hsel)]
    rw [isUnknown_of_entry hsel] at hunknown
    rw [isNotImplemented_of_entry hsel] at himpl
    exact exec_next_of_no_cause hunknown himpl
  · exact absurd (hrejected s.cfg) hunknown

/-- A fault of a fetched word has one of the listed causes. -/
theorem cause_of_step_fault {f : Fault} (h : step s = .fault f) :
    (f = .unknownInstruction w ∧ IsUnknown s.cfg w) ∨ (f = .notImplemented w ∧ IsNotImplemented s w) := by
  by_cases hunknown : IsUnknown s.cfg w
  · rw [step_of_isUnknown hl hf hunknown, Host.Outcome.fault.injEq] at h
    exact .inl ⟨h.symm, hunknown⟩
  · by_cases himpl : IsNotImplemented s w
    · rw [step_of_isNotImplemented hl hf himpl, Host.Outcome.fault.injEq] at h
      exact .inr ⟨h.symm, himpl⟩
    · obtain ⟨t, ht⟩ := step_next_of_no_cause hl hf hunknown himpl
      rw [ht] at h
      cases h

end

/-- Settles O11: the two kinds of cause, and that a step without a cause goes on. -/
theorem faultsHaveExactlyTheListedCauses : Obligations.FaultsHaveExactlyTheListedCauses :=
  fun _ _ hl hf =>
    ⟨fun _ => cause_of_step_fault hl hf, step_of_isNotImplemented hl hf, step_next_of_no_cause hl hf⟩

/-- Settles O10: of the two kinds of fault only an unknown word's is `UnknownInstruction`. -/
theorem unknownInstructionsAreExactlyTheUncataloguedWords :
    Obligations.UnknownInstructionsAreExactlyTheUncataloguedWords := by
  refine fun s w hl hf => ⟨fun h => ?_, step_of_isUnknown hl hf⟩
  obtain ⟨-, hunknown⟩ | ⟨hother, -⟩ := cause_of_step_fault hl hf h
  · exact hunknown
  · cases hother

/-- Settles O34: selector 0 without SLL is the second clause of R95. -/
theorem selectorZeroWithoutSllIsUnknown : Obligations.SelectorZeroWithoutSllIsUnknown := by
  rintro s w hl hf ⟨hprimary, hfunction⟩ hsll
  exact step_of_isUnknown hl hf (.inl ⟨hprimary, .inr ⟨hfunction, hsll⟩⟩)

/-- Settles O42: no hook is the first listed cause. -/
theorem syscallWithoutHookIsNotImplemented : Obligations.SyscallWithoutHookIsNotImplemented :=
  fun _ _ hl hf hword hhook => step_of_isNotImplemented hl hf (.inl ⟨hword, hhook⟩)

/-- Settles O44: the stubbed family is the third listed cause. -/
theorem stubbedHiloWordsAreNotImplemented : Obligations.StubbedHiloWordsAreNotImplemented :=
  fun _ _ hl hf hword hstub => step_of_isNotImplemented hl hf (.inr (.inr (.inl ⟨hword, hstub⟩)))

/-- Settles O50: a zero divisor is the last listed cause. -/
theorem zeroDivisorIsNotImplemented : Obligations.ZeroDivisorIsNotImplemented :=
  fun _ _ hl hf hword hfull hzero => step_of_isNotImplemented hl hf (.inr (.inr (.inr ⟨hword, hfull, hzero⟩)))

end Sys2Proof.Machine
end

section
/-! PROOFS. Program memory (20_memory.md R50, R53): what is read of an image, and that the canonical form is canonical. -/

namespace Sys2Proof.Machine

@[simp] theorem Memory.length_words (m : Memory) : m.words.length = m.size := by simp [Memory.words]

/-- Reading memory is reading the list of its words. -/
theorem Memory.getElem?_words (m : Memory) (a : Nat) : m.words[a]? = m.read a := by
  by_cases h : a < m.size <;> simp [Memory.words, Memory.read, h]

/-- Memory holds its own words. -/
theorem holdsWords_words (m : Memory) : HoldsWords m m.words := ⟨m.length_words.symm, fun a => (m.getElem?_words a).symm⟩

/-- The words a memory holds are the words read out of it. -/
theorem HoldsWords.words_eq {m : Memory} {ws : List Word} (h : HoldsWords m ws) : m.words = ws :=
  List.ext_getElem? fun a => (m.getElem?_words a).trans (h.2 a)

/-- Appending a word to memory appends it to the words held (20_memory.md R50). -/
theorem HoldsWords.append {m : Memory} {ws : List Word} (h : HoldsWords m ws) (hr : Rising m.cells) (w : Word) :
    HoldsWords (m.append w) (ws ++ [w]) := by
  obtain ⟨hsize, hread⟩ := h
  refine ⟨by simp [hsize], fun a => ?_⟩
  rcases Nat.lt_trichotomy a ws.length with ha | rfl | ha
  · rw [Memory.read_append_of_lt m w (hsize ▸ ha), hread, List.getElem?_append_left ha]
  · rw [← hsize, Memory.read_append_size hr, hsize]
    simp
  · have hend : (m.append w).read a = none := by
      rw [Memory.read_eq_none_iff, Memory.append_size]; omega
    rw [hend, eq_comm, List.getElem?_eq_none_iff, List.length_append, List.length_singleton]
    omega

/-- An image's memory holds the image, and its cells rise: by induction on appends. -/
theorem holdsWords_ofWords (ws : List Word) : HoldsWords (Memory.ofWords ws) ws ∧ Rising (Memory.ofWords ws).cells := by
  induction ws using List.reverseRecOn with
  | nil => exact ⟨⟨rfl, fun a => by simp [Memory.read_eq_none_iff, Memory.ofWords, Memory.empty]⟩, .nil⟩
  | append_singleton ws w ih =>
    have happend : Memory.ofWords (ws ++ [w]) = (Memory.ofWords ws).append w := by simp [Memory.ofWords]
    rw [happend]
    exact ⟨ih.1.append ih.2 w, rising_storeCell ih.2 _ _⟩

/-- Settles O22: what memory holds is what is read out of it. -/
theorem loadedImageIsWhatIsRead : Obligations.LoadedImageIsWhatIsRead :=
  fun ws => ⟨(holdsWords_ofWords ws).1, (holdsWords_ofWords ws).1.words_eq⟩

/-- In rising cells without a zero word, a cell is listed exactly when its word is looked up at its index. -/
theorem mem_cells_iff {cs : List (Nat × Word)} (hr : Rising cs) (hne : ∀ c ∈ cs, c.2 ≠ 0#32) (c : Nat × Word) :
    c ∈ cs ↔ lookupCell cs c.1 = c.2 ∧ c.2 ≠ 0#32 := by
  induction cs with
  | nil => exact ⟨nofun, fun ⟨hzero, hne⟩ => absurd hzero.symm hne⟩
  | cons d rest ih =>
    obtain ⟨hlt, hrest⟩ := List.pairwise_cons.mp hr
    have ih := ih hrest fun e he => hne e (List.mem_cons_of_mem d he)
    have hd : d.2 ≠ 0#32 := hne d List.mem_cons_self
    by_cases hkey : d.1 = c.1
    · have hnot : c ∉ rest := fun hc => Nat.ne_of_lt (hlt c hc) hkey
      simp only [lookupCell, hkey, if_true, List.mem_cons, hnot, or_false]
      constructor
      · rintro rfl
        exact ⟨rfl, hd⟩
      · exact fun h => (Prod.ext hkey h.1).symm
    · have hcd : c ≠ d := fun e => hkey (congrArg Prod.fst e).symm
      simp only [lookupCell, if_neg hkey, List.mem_cons, hcd, false_or, ih]

/-- In canonical form the cells listed are the words read that are not zero. -/
theorem Memory.mem_cells_iff_read {m : Memory} (h : m.wf) (c : Nat × Word) :
    c ∈ m.cells ↔ m.read c.1 = some c.2 ∧ c.2 ≠ 0#32 := by
  obtain ⟨-, hrising, hcells⟩ := h
  have hlisted := mem_cells_iff hrising (fun d hd => (hcells d hd).2) c
  by_cases hc : c.1 < m.size
  · simp only [Memory.read, hc, if_true, Option.some.injEq, hlisted]
  · have hnot : c ∉ m.cells := fun hmem => hc (hcells c hmem).1
    simp only [Memory.read, hc, if_false, reduceCtorEq, false_and, hnot]

/-- Settles O23: equal reads give equal sizes and the same cells, and rising lists with the same members are equal. -/
theorem canonicalMemoriesThatReadAlikeAreEqual : Obligations.CanonicalMemoriesThatReadAlikeAreEqual := by
  intro m n hm hn hread
  have hsize : m.size = n.size := by
    apply Nat.le_antisymm
    · rw [← Memory.read_eq_none_iff, hread, Memory.read_eq_none_iff]
    · rw [← Memory.read_eq_none_iff, ← hread, Memory.read_eq_none_iff]
  have hmem (c : Nat × Word) : c ∈ m.cells ↔ c ∈ n.cells := by
    rw [Memory.mem_cells_iff_read hm, Memory.mem_cells_iff_read hn, hread]
  have hirrefl : Std.Irrefl fun p q : Nat × Word => p.1 < q.1 := ⟨fun p => Nat.lt_irrefl p.1⟩
  have hantisymm : Std.Antisymm fun p q : Nat × Word => p.1 < q.1 := ⟨fun _ _ h g => absurd g (Nat.lt_asymm h)⟩
  have hcells : m.cells = n.cells := hm.2.1.eq_of_mem_iff hn.2.1 hmem
  cases m; cases n
  exact congr (congrArg Memory.mk hsize) hcells

end Sys2Proof.Machine
end

section
/-! PROOFS. Registers between steps (10_state.md R23, R24, R39, R40, R41): a read after a write, construction, load and the
host's operations. -/

namespace Sys2Proof.Machine

/-- Whether a register is writable depends on the configuration alone. -/
theorem regWritable_congr {s t : State} (h : t.cfg = s.cfg) (r : RegId) : RegWritable t r ↔ RegWritable s r := by
  simp [RegWritable, h]

/-- A slot is a writable register exactly when it is not hard-wired. -/
theorem regWritable_gpr (s : State) (i : Slot) : RegWritable s (.gpr i) ↔ Writable s i := by
  simp [RegWritable, Writable]

/-- A hard-wired slot reads zero in every state (10_state.md R23). -/
theorem readSlot_of_not_writable {s : State} {i : Slot} (h : ¬ Writable s i) : s.readSlot i = 0#32 :=
  if_pos ((isWiredZero_iff_not_writable s i).mpr h)

/-- A write to a hard-wired slot is discarded (10_state.md R24). -/
theorem writeSlot_of_not_writable {s : State} {i : Slot} (h : ¬ Writable s i) (v : Word) : s.writeSlot i v = s := by
  simp [State.writeSlot, (isWiredZero_iff_not_writable s i).mpr h]

theorem readSlot_writeSlot_of_writable {s : State} {i : Slot} (h : Writable s i) (v : Word) :
    (s.writeSlot i v).readSlot i = v := by
  rw [State.readSlot_writeSlot_same]
  exact if_neg fun wired => (isWiredZero_iff_not_writable s i).mp wired h

/-- A register read after a write to the same register, which is not hard-wired. -/
theorem readReg_writeReg_same {s : State} {r : RegId} (h : RegWritable s r) (v : Word) :
    (s.writeReg r v).readReg r = v := by
  cases r with
  | gpr i => exact readSlot_writeSlot_of_writable ((regWritable_gpr s i).mp h) v
  | pc | hi | lo => rfl

/-- A register read after a write to another register. -/
theorem readReg_writeReg_other (s : State) {q r : RegId} (h : q ≠ r) (v : Word) :
    (s.writeReg r v).readReg q = s.readReg q := by
  cases r with
  | gpr i =>
    cases q with
    | gpr k => exact State.readSlot_writeSlot_other s v fun e => h (congrArg _ e)
    | pc | hi | lo => rfl
  | pc => cases q with
    | pc => exact absurd rfl h
    | _ => rfl
  | hi => cases q with
    | hi => exact absurd rfl h
    | _ => rfl
  | lo => cases q with
    | lo => exact absurd rfl h
    | _ => rfl

/-- A register that is not writable is the hard-wired slot, where a write is discarded and a read is zero. -/
theorem writeReg_of_not_regWritable {s : State} {r : RegId} (h : ¬ RegWritable s r) (v : Word) : s.writeReg r v = s := by
  cases r with
  | gpr i => exact writeSlot_of_not_writable (mt (regWritable_gpr s i).mpr h) v
  | pc | hi | lo => exact absurd (fun wired => nomatch wired.2) h

theorem readReg_of_not_regWritable {s : State} {r : RegId} (h : ¬ RegWritable s r) : s.readReg r = 0#32 := by
  cases r with
  | gpr i => exact readSlot_of_not_writable (mt (regWritable_gpr s i).mpr h)
  | pc | hi | lo => exact absurd (fun wired => nomatch wired.2) h

/-- Memory, `loaded` and the configuration unchanged are memory kept. -/
theorem SameSetup.keepsMemory {s t : State} (h : SameSetup s t) : KeepsMemory s t := by
  obtain ⟨hmem, hloaded, hcfg⟩ := h
  rw [KeepsMemory, hmem]
  exact ⟨fun _ => rfl, rfl, hloaded, hcfg⟩

/-- Settles O21: the slot rules, and the hard-wired slot is not writable. -/
theorem slotReadsAfterWrites : Obligations.SlotReadsAfterWrites := by
  refine fun s i v => ⟨⟨fun h => readSlot_writeSlot_of_writable h v, fun h => ?_⟩,
    ⟨fun k hk => s.readSlot_writeSlot_other v hk, ⟨rfl, rfl⟩, fun _ => rfl, rfl, rfl, rfl⟩, rfl, fun hwired => ?_⟩
  · rw [writeSlot_of_not_writable h, readSlot_of_not_writable h]
  · have hzero : ¬ Writable s 0 := fun h => h ⟨hwired, rfl⟩
    exact ⟨readSlot_of_not_writable hzero, writeSlot_of_not_writable hzero v⟩

/-- Settles O4: an injection is a register write. -/
theorem injectionWritesOneRegister : Obligations.InjectionWritesOneRegister :=
  fun s r v => ⟨fun h => readReg_writeReg_same h v, fun h => writeReg_of_not_regWritable h v,
    fun _ hq => readReg_writeReg_other s hq v, (s.writeReg_sameSetup r v).keepsMemory⟩

/-- Settles O3: these operations are the identity, and the words read out are the words held. -/
theorem hostReadsAndUnreadableLoadsChangeNothing : Obligations.HostReadsAndUnreadableLoadsChangeNothing :=
  fun s _ => ⟨rfl, rfl, rfl, rfl, s.pmem.words, rfl, holdsWords_words s.pmem⟩

/-- A machine whose slots all store zero reads zero in each. -/
theorem readSlot_of_x_zero {s : State} (h : s.x = Vector.replicate 32 0#32) (i : Slot) : s.readSlot i = 0#32 := by
  simp [State.readSlot, h]

/-- Settles O1: every field is the constant construction gives it. -/
theorem resetIsZeroedEmptyAndUnloaded : Obligations.ResetIsZeroedEmptyAndUnloaded :=
  ⟨fun _ => ⟨⟨readSlot_of_x_zero rfl, rfl, rfl, rfl⟩, (holdsWords_ofWords []).1, rfl⟩, rfl⟩

/-- Settles O2: a load starts from a cleared machine, and its memory is the image's. -/
theorem loadClearsRegistersAndTakesTheImage : Obligations.LoadClearsRegistersAndTakesTheImage :=
  fun _ words _ =>
    ⟨fun _ _ => ⟨_, rfl, readSlot_of_x_zero rfl, rfl, rfl, entryPc_toNat, (holdsWords_ofWords words).1, rfl, rfl⟩,
      fun _ => ⟨_, rfl, readSlot_of_x_zero rfl, rfl, rfl, (holdsWords_ofWords words).1, rfl, rfl⟩⟩

/-- The machine right after a load fetches the word at `main` (20_memory.md R55, R67). -/
theorem fetch_load {words : List Word} {main : Nat} {w : Word} (s : State) (hfit : words.length ≤ 2 ^ 32)
    (hw : words[main]? = some w) : (s.load (.assembled words main)).fetch = some w := by
  obtain ⟨hmain, -⟩ := List.getElem?_eq_some_iff.mp hw
  have hpc : (s.load (.assembled words main)).pc.toNat = main := entryPc_toNat (hmain.trans_le hfit)
  rw [State.fetch, hpc]
  exact ((holdsWords_ofWords words).1.2 main).trans hw

/-- Settles O6: the machine just loaded fetches the word at `main`. -/
theorem firstStepAfterLoadRunsMain : Obligations.FirstStepAfterLoadRunsMain :=
  fun s _ _ _ _ hfit hw hd => step_of_decode rfl (fetch_load s hfit hw) hd

end Sys2Proof.Machine
end

section
/-! PROOFS. What an `Ok` step does to `pc`, `hi` and `lo` (10_state.md R29, R32; 44_system.md R170; 45_hilo.md R181). -/

namespace Sys2Proof.Machine

/-! ### A hook's writes -/

theorem writeRegs_append (s : State) (before after : List (RegId × Word)) :
    s.writeRegs (before ++ after) = (s.writeRegs before).writeRegs after := List.foldl_append

/-- A register no write names is as before. -/
theorem readReg_writeRegs_of_unnamed {s : State} {r : RegId} {writes : List (RegId × Word)}
    (h : ∀ v, (r, v) ∉ writes) : (s.writeRegs writes).readReg r = s.readReg r := by
  induction writes generalizing s with
  | nil => rfl
  | cons rv rest ih =>
    have hne : r ≠ rv.1 := fun e => h rv.2 (by simp [e])
    have hrest : ∀ v, (r, v) ∉ rest := fun v hv => h v (List.mem_cons_of_mem rv hv)
    exact (ih hrest).trans (readReg_writeReg_other s hne rv.2)

/-- The last write of a writable register is what it reads. -/
theorem readReg_writeRegs_last {s : State} {r : RegId} (hr : RegWritable s r) (before : List (RegId × Word)) (v : Word)
    {after : List (RegId × Word)} (h : ∀ u, (r, u) ∉ after) :
    (s.writeRegs (before ++ (r, v) :: after)).readReg r = v := by
  obtain ⟨-, -, hcfg⟩ := State.writeRegs_sameSetup before s
  rw [writeRegs_append]
  exact (readReg_writeRegs_of_unnamed h).trans (readReg_writeReg_same ((regWritable_congr hcfg r).mpr hr) v)

/-- Whether a list of writes names `pc`, as the model asks it. -/
theorem any_pc_eq_false_iff (writes : List (RegId × Word)) :
    writes.any (fun rv => rv.1 == .pc) = false ↔ ∀ v, (RegId.pc, v) ∉ writes := by
  simp only [List.any_eq_false, beq_iff_eq]
  exact ⟨fun h v hv => h _ hv rfl, fun h rv hrv e => h rv.2 (e ▸ hrv)⟩

/-- A hook that does not set `pc` leaves it one on (44_system.md R170). -/
theorem afterHook_pc {s : State} {writes : List (RegId × Word)} (h : ∀ v, (RegId.pc, v) ∉ writes) :
    (s.afterHook writes).pc = s.pc + 1#32 := by
  have hpc : (s.writeRegs writes).pc = s.pc := readReg_writeRegs_of_unnamed h
  simp [State.afterHook, (any_pc_eq_false_iff writes).mpr h, hpc]

/-- Every register but `pc` reads as the hook's writes leave it, and so does a `pc` they name. -/
theorem readReg_afterHook {s : State} {r : RegId} {writes : List (RegId × Word)}
    (h : r ≠ .pc ∨ ∃ v, (RegId.pc, v) ∈ writes) : (s.afterHook writes).readReg r = (s.writeRegs writes).readReg r := by
  unfold State.afterHook
  split
  · rfl
  · next hany =>
    rcases h with hr | ⟨v, hv⟩
    · cases r with
      | pc => exact absurd rfl hr
      | _ => rfl
    · exact absurd hv ((any_pc_eq_false_iff writes).mp (Bool.not_eq_true _ ▸ hany) v)

/-- Settles O43: SYSCALL leaves the hook's writes, the last to each register last, and the advance changes `pc` only. -/
theorem syscallDoesWhatItsHookAnswers : Obligations.SyscallDoesWhatItsHookAnswers := by
  intro s h writes hhook hanswer
  have hsetup := s.afterHook_sameSetup writes
  refine ⟨_, execSyscall_eq_next.mpr ⟨h, writes, hhook, hanswer, rfl⟩, hsetup.keepsMemory, afterHook_pc,
    fun r hr hunnamed => ?_, ?_⟩
  · rw [readReg_afterHook (.inl hr), readReg_writeRegs_of_unnamed hunnamed]
  · rintro before r v after rfl hlast
    constructor
    · intro hwritable
      have hnamed : r ≠ .pc ∨ ∃ u, (RegId.pc, u) ∈ before ++ (r, v) :: after := by
        by_cases hr : r = .pc
        · exact .inr ⟨v, by simp [hr]⟩
        · exact .inl hr
      rw [readReg_afterHook hnamed, readReg_writeRegs_last hwritable before v hlast]
    · obtain ⟨-, -, hcfg⟩ := hsetup
      exact fun hwired => readReg_of_not_regWritable (mt (regWritable_congr hcfg r).mp hwired)

/-! ### The program counter -/

/-- Where an instruction other than SYSCALL leaves `pc` (10_state.md R29). -/
def pcAfter (i : Instr) (pc : Word) : Word :=
  match i with
  | .j target => jumpIndex target
  | _         => pc + 1#32

@[simp] theorem pcAfter_j (target : Nat) (pc : Word) : pcAfter (.j target) pc = jumpIndex target := rfl

theorem pcAfter_of_ne_j {i : Instr} (h : ∀ target, i ≠ .j target) (pc : Word) : pcAfter i pc = pc + 1#32 := by
  cases i with
  | j target => exact absurd rfl (h target)
  | _ => rfl

/-- An instruction other than SYSCALL moves `pc` by its kind and the old `pc` alone. -/
theorem exec_pc {i : Instr} {s t : State} (h : exec i s = .next t) (hi : i ≠ .syscall) : t.pc = pcAfter i s.pc := by
  cases i with
  | syscall => exact absurd rfl hi
  | j target => cases h; rfl
  | _ =>
    obtain ⟨rd, v, rfl⟩ | ⟨hi, lo, rfl⟩ | ⟨target, hj, -⟩ | ⟨writes, hsyscall, -⟩ := exec_next_shape h
    · rfl
    · rfl
    · cases hj
    · cases hsyscall

/-- With no hook a step moves `pc` by the instruction and the old `pc` alone. -/
theorem step_pc_of_no_hook {s t : State} (h : step s = .next t) (hhook : s.cfg.syscallHook = none) :
    ∃ w i, s.fetch = some w ∧ decodeWord w = .ok i ∧ t.pc = pcAfter i s.pc := by
  obtain ⟨-, w, i, hf, hd, hexec⟩ := step_eq_next.mp h
  refine ⟨w, i, hf, hd, exec_pc hexec ?_⟩
  rintro rfl
  obtain ⟨hook, -, hsome, -⟩ := execSyscall_eq_next.mp hexec
  rw [hhook] at hsome
  cases hsome

theorem toNat_add_one (v : Word) : (v + 1#32).toNat = (v.toNat + 1) % 2 ^ 32 := BitVec.toNat_add v 1#32

/-- A target that fits its field is the `pc` a jump sets. -/
theorem toNat_jumpIndex {target : Nat} (h : target < 2 ^ 26) : (jumpIndex target).toNat = target := by
  rw [jumpIndex, BitVec.toNat_ofNat]
  exact Nat.mod_eq_of_lt (h.trans (by decide))

/-- A decoded jump's target fits its field (30_encoding.md R82). -/
theorem target_lt_of_decodeWord {w : Word} {target : Nat} (h : decodeWord w = .ok (.j target)) : target < 2 ^ 26 := by
  obtain ⟨o, -, ho⟩ := decodeWord_eq_ok h
  have hwf := wellFormed_assemble o w
  rw [← ho] at hwf
  exact of_decide_eq_true hwf

/-- Settles O12: `pc` by the kind of the instruction the step decodes. -/
theorem stepMovesPcByInstructionKind : Obligations.StepMovesPcByInstructionKind := by
  intro s t h
  obtain ⟨-, w, i, hf, hd, hexec⟩ := step_eq_next.mp h
  refine ⟨w, i, hf, hd, ?_, ?_, fun hj hsyscall => ?_⟩
  · rintro target rfl
    rw [exec_pc hexec nofun, pcAfter_j, toNat_jumpIndex (target_lt_of_decodeWord hd)]
  · rintro rfl
    obtain ⟨hook, writes, hhook, hanswer, rfl⟩ := execSyscall_eq_next.mp hexec
    exact ⟨hook, writes, hhook, hanswer, fun hunnamed => by rw [afterHook_pc hunnamed, toNat_add_one]⟩
  · rw [exec_pc hexec hsyscall, pcAfter_of_ne_j hj, toNat_add_one]

/-- Settles O17: the two machines fetch the same word, which alone moves `pc`. -/
theorem controlFlowIgnoresRegisterValues : Obligations.ControlFlowIgnoresRegisterValues := by
  intro s t s' t' hpc hmem _ hcfg hhook hs ht
  obtain ⟨w, i, hf, hd, hspc⟩ := step_pc_of_no_hook hs hhook
  obtain ⟨w', i', hf', hd', htpc⟩ := step_pc_of_no_hook ht (hcfg ▸ hhook)
  rw [State.fetch, hpc, hmem, ← State.fetch, hf] at hf'
  cases hf'
  rw [hd] at hd'
  cases hd'
  rw [htpc, hspc, hpc]

/-! ### `hi` and `lo` -/

/-- What an instruction may do to `hi` and `lo`: a hook anything, the family's writers under `full` their own, every other
instruction nothing (10_state.md R32, 45_hilo.md R181). -/
theorem exec_hilo {i : Instr} {s t : State} (h : exec i s = .next t) :
    i = .syscall ∨ KeepsHilo s t ∨
      (s.cfg.hiloFamily = .full ∧
        (t.hi = s.hi ∨ i.opcode ∈ [Opcode.mthi, Opcode.mult, Opcode.multu, Opcode.div, Opcode.divu]) ∧
        (t.lo = s.lo ∨ i.opcode ∈ [Opcode.mtlo, Opcode.mult, Opcode.multu, Opcode.div, Opcode.divu])) := by
  cases i with
  | syscall => exact .inl rfl
  | mthi _ | mtlo _ =>
    obtain ⟨hfull, heffect⟩ := whenHiloFull_eq_next.mp h
    cases heffect
    exact .inr (.inr ⟨hfull, by simp [Instr.opcode]⟩)
  | mult _ _ | multu _ _ | div _ _ | divu _ _ =>
    exact .inr (.inr ⟨(whenHiloFull_eq_next.mp h).1, .inr (by simp [Instr.opcode]), .inr (by simp [Instr.opcode])⟩)
  | mfhi _ | mflo _ =>
    obtain ⟨-, heffect⟩ := whenHiloFull_eq_next.mp h
    cases heffect
    exact .inr (.inl ⟨rfl, rfl⟩)
  | sll rd rt n =>
    simp only [exec, execSll] at h
    split at h
    · cases h
      exact .inr (.inl ⟨rfl, rfl⟩)
    · cases h
  | _ =>
    cases h
    exact .inr (.inl ⟨rfl, rfl⟩)

/-- Settles O15: the instruction the step decodes is a hook, keeps both registers, or is one of the family's writers. -/
theorem onlyTheHiloFamilyChangesHiAndLo : Obligations.OnlyTheHiloFamilyChangesHiAndLo := by
  intro s t h
  obtain ⟨-, w, i, hf, hd, hexec⟩ := step_eq_next.mp h
  refine ⟨w, i, hf, hd, ?_⟩
  obtain hsyscall | ⟨hhi, hlo⟩ | ⟨hfull, hhi, hlo⟩ := exec_hilo hexec
  · exact ⟨fun _ => .inl hsyscall, fun _ => .inl hsyscall⟩
  · exact ⟨fun h => absurd hhi h, fun h => absurd hlo h⟩
  · exact ⟨fun h => .inr ⟨hfull, hhi.resolve_left h⟩, fun h => .inr ⟨hfull, hlo.resolve_left h⟩⟩

/-- Under `stub` and with no hook a step keeps `hi` and `lo`. -/
theorem step_keepsHilo_of_stub {s t : State} (hstub : s.cfg.hiloFamily = .stub) (hhook : s.cfg.syscallHook = none)
    (h : step s = .next t) : KeepsHilo s t := by
  obtain ⟨-, w, i, -, -, hexec⟩ := step_eq_next.mp h
  obtain rfl | hkeeps | ⟨hfull, -⟩ := exec_hilo hexec
  · obtain ⟨hook, -, hsome, -⟩ := execSyscall_eq_next.mp hexec
    rw [hhook] at hsome
    cases hsome
  · exact hkeeps
  · rw [hstub] at hfull
    cases hfull

/-- Settles O16, by induction on the run: the configuration is constant, so each step keeps both registers. -/
theorem stubbedHiloNeverChanges : Obligations.StubbedHiloNeverChanges := by
  intro s t hstub hhook run
  induction run with
  | refl => exact ⟨rfl, rfl⟩
  | tail run last ih =>
    obtain ⟨-, -, hcfg⟩ := run.sameSetup
    obtain ⟨hhi, hlo⟩ := step_keepsHilo_of_stub (hcfg ▸ hstub) (hcfg ▸ hhook) last
    exact ⟨hhi.trans ih.1, hlo.trans ih.2⟩

/-- No host operation changes the configuration (70_reset_and_hazards.md R240). -/
theorem afterHost_cfg (s : State) (act : HostAction) : (s.afterHost act).cfg = s.cfg := by
  cases act with
  | load a => cases a <;> rfl
  | inject r v => exact (s.writeReg_sameSetup r v).2.2
  | new | displayRegister _ | dumpProgram => rfl

/-- Settles O14: steps keep the setup, and no host operation touches the configuration. -/
theorem configurationAndLoadedAreConstant : Obligations.ConfigurationAndLoadedAreConstant :=
  ⟨fun _ _ run => run.sameSetup.2, afterHost_cfg⟩

end Sys2Proof.Machine
end

section
/-! PROOFS. The other instructions that write one slot and advance (40_alu_register.md, 41_shifts.md, 42_immediate.md), each
by what its value means. -/

namespace Sys2Proof.Machine

/-- The whole effect of a slot written and the advance. -/
theorem writeSlot_advance_effect (s : State) (rd : Slot) (v : Word) :
    ∃ t, okAdvance (s.writeSlot rd v) = .next t ∧ SlotReads rd v s t ∧ OnlySlot rd s t ∧ t.pc = s.pc + 1#32 :=
  ⟨_, rfl, slotReads_writeSlot_advance s rd v, onlySlot_writeSlot_advance s rd v, rfl⟩

/-- An instruction that writes a value with a property to one slot, and advances: the form of the statements. -/
theorem exists_effect_of_value {i : Instr} {s : State} {rd : Slot} {v : Word} {P : Word → Prop}
    (hexec : exec i s = okAdvance (s.writeSlot rd v)) (hv : P v) :
    ∃ t v, exec i s = .next t ∧ P v ∧ SlotReads rd v s t ∧ OnlySlot rd s t ∧ t.pc = s.pc + 1#32 := by
  obtain ⟨t, hnext, heffect⟩ := writeSlot_advance_effect s rd v
  exact ⟨t, v, hexec.trans hnext, hv, heffect⟩

/-- Settles O30: SUB is the three-register template over the 32-bit difference. -/
theorem subWritesTheWrappedDifference : Obligations.SubWritesTheWrappedDifference := by
  intro rd rs rt s
  obtain ⟨t, hexec, heffect⟩ := threeRegister_effect (fun a b => a - b) rd rs rt s
  refine ⟨t, _, hexec, ?_, heffect⟩
  rw [BitVec.toNat_sub, Nat.sub_add_comm (s.readSlot rt).isLt.le]

/-- Settles O31: each of the three is the template over the bitwise operation. -/
theorem bitwiseInstructionsActOnEachBit : Obligations.BitwiseInstructionsActOnEachBit := by
  intro rd rs rt s
  refine ⟨?_, ?_, ?_⟩
  · obtain ⟨t, hexec, heffect⟩ := threeRegister_effect (fun a b => a &&& b) rd rs rt s
    exact ⟨t, _, hexec, fun n _ => BitVec.getLsbD_and, heffect⟩
  · obtain ⟨t, hexec, heffect⟩ := threeRegister_effect (fun a b => a ||| b) rd rs rt s
    exact ⟨t, _, hexec, fun n _ => BitVec.getLsbD_or, heffect⟩
  · obtain ⟨t, hexec, heffect⟩ := threeRegister_effect (fun a b => a ^^^ b) rd rs rt s
    exact ⟨t, _, hexec, fun n _ => BitVec.getLsbD_xor, heffect⟩

/-- Settles O32: SLT is the template over the signed comparison (40_alu_register.md R126). -/
theorem sltComparesAsSignedIntegers : Obligations.SltComparesAsSignedIntegers := by
  intro rd rs rt s
  obtain ⟨t, hexec, heffect⟩ := threeRegister_effect lessThanSigned rd rs rt s
  exact ⟨t, _, hexec, fun h => if_pos h, fun h => if_neg (Int.not_lt.mpr h), heffect⟩

/-- An arithmetic shift is the signed division by the power of two, rounded down (41_shifts.md R143). -/
theorem toInt_sshiftRight_eq_fdiv (a : Word) (n : Nat) : (a.sshiftRight n).toInt = Int.fdiv a.toInt (2 ^ n) := by
  rw [BitVec.toInt_sshiftRight, Int.shiftRight_eq_div_pow, Int.fdiv_eq_ediv_of_nonneg _ (by positivity)]
  simp

/-- Settles O33: each shift is the constant-shift template over the operation. -/
theorem shiftsMultiplyAndDivideByPowersOfTwo : Obligations.ShiftsMultiplyAndDivideByPowersOfTwo := by
  intro rd rt shamt s _
  refine ⟨fun hsll => exists_effect_of_value (if_pos hsll) ?_, exists_effect_of_value rfl ?_,
    exists_effect_of_value rfl (toInt_sshiftRight_eq_fdiv _ _)⟩
  · rw [BitVec.toNat_shiftLeft, Nat.shiftLeft_eq]
  · rw [BitVec.toNat_ushiftRight, Nat.shiftRight_eq_div_pow]

/-- Settles O36: the zero-extended immediate has an empty upper half (42_immediate.md R150). -/
theorem oriSetsTheLowHalf : Obligations.OriSetsTheLowHalf := by
  intro rt rs imm s
  obtain ⟨t, hnext, heffect⟩ := writeSlot_advance_effect s rt (s.readSlot rs ||| zext16 imm)
  refine ⟨t, _, hnext, ?_, ?_, heffect⟩
  · have hupper : (zext16 imm).extractLsb' 16 16 = 0#16 := by
      apply BitVec.eq_of_getLsbD_eq
      intro k hk
      simp [zext16]
    rw [BitVec.extractLsb'_or, hupper, BitVec.or_zero]
  · have hlower : (zext16 imm).extractLsb' 0 16 = imm := by
      apply BitVec.eq_of_getLsbD_eq
      intro k hk
      have hword : k < 32 := by omega
      simp [zext16, hk, hword]
    rw [BitVec.extractLsb'_or, hlower]

/-- The word of `li` is the encoder's ORI from slot 0 (30_encoding.md R112). -/
theorem encode_ori_zero (rt : Slot) (imm : BitVec 16) :
    encode (.ori rt 0 imm) = 0x34000000#32 ||| BitVec.ofNat 32 rt <<< 16 ||| imm.setWidth 32 := by
  simp only [encode, encodeI, atBit_slot_zero, BitVec.or_zero]
  rfl

/-- `li` is read as an ORI from slot 0 (30_encoding.md R112). -/
theorem instructionLine_li (sym : Symbols) (line : Nat) (rt imm : Operand) :
    instructionLine sym line "li" [rt, imm] = oriOperands sym line rt (.ok 0) imm := if_pos rfl

/-- The operands of `li`, written as numbers. -/
theorem oriOperands_li (sym : Symbols) (line : Nat) (rt : Slot) (imm : BitVec 16) :
    oriOperands sym line (.number rt.val) (.ok 0) (.number imm.toNat) = .ok (.ori rt 0 imm) := by
  have himm : sym.field line 65536 (.number imm.toNat) = .ok imm.toNat := Symbols.field_number sym line imm.isLt
  rw [oriOperands, registerOperand_number, himm]
  simp [bind, Except.bind, pure, Except.pure]

/-- Settles O37: the line is the ORI, its word decodes to it, and slot 0 reads zero where it is hard-wired. -/
theorem liLoadsTheZeroExtendedImmediate : Obligations.LiLoadsTheZeroExtendedImmediate := by
  refine fun rt imm sym line s => ⟨?_, fun hl hwired hf => ?_⟩
  · rw [instructionLine_li, oriOperands_li]
  · rw [← encode_ori_zero] at hf
    have hstep := step_of_decode hl hf (decodeOfEncodeIsTheInstruction (.ori rt 0 imm) rfl)
    have hzero : s.readSlot 0 = 0#32 := readSlot_of_not_writable fun h => h ⟨hwired, rfl⟩
    obtain ⟨t, hnext, heffect⟩ := writeSlot_advance_effect s rt (s.readSlot 0 ||| zext16 imm)
    refine ⟨t, _, hstep.trans hnext, ?_, heffect⟩
    rw [hzero, BitVec.zero_or, zext16, BitVec.toNat_setWidth, Nat.mod_eq_of_lt (imm.isLt.trans (by decide))]

/-- The zero word is the SLL of slot 0 by nothing (20_memory.md R56). -/
theorem decodeWord_zero : decodeWord 0#32 = .ok (.sll 0 0 0) := by decide

/-- Writing a slot's own value, hard-wired or not, changes no slot. -/
theorem keepsSlots_writeSlot_self (s : State) (i : Slot) : KeepsSlots s (s.writeSlot i (s.readSlot i)).advance := by
  intro k
  rw [State.readSlot_advance]
  by_cases hk : k = i
  · subst hk
    by_cases hw : Writable s k
    · exact readSlot_writeSlot_of_writable hw _
    · rw [writeSlot_of_not_writable hw]
  · exact s.readSlot_writeSlot_other _ hk

/-- Settles O35: the zero word writes slot 0's own value back to it. -/
theorem zeroCellOnlyAdvances : Obligations.ZeroCellOnlyAdvances := by
  intro s hl hf hsll
  have hexec : exec (.sll 0 0 0) s = .next (s.writeSlot 0 (s.readSlot 0)).advance := by
    simp [exec, execSll, hsll, shiftByConstant, okAdvance]
  obtain ⟨-, hhilo, hmem⟩ := onlySlot_writeSlot_advance s 0 (s.readSlot 0)
  exact ⟨_, (step_of_decode hl hf decodeWord_zero).trans hexec, keepsSlots_writeSlot_self s 0, hhilo, hmem, rfl⟩

end Sys2Proof.Machine
end

section
/-! PROOFS. Jumps and runs (43_jump.md R160, R162, R164; 60_exceptions.md R206). -/

namespace Sys2Proof.Machine

/-- Settles O38: a jump sets `pc`. -/
theorem jumpSetsPcAndNothingElse : Obligations.JumpSetsPcAndNothingElse :=
  fun _ s h => ⟨_, rfl, toNat_jumpIndex h, s.setPc_frame _⟩

/-- Settles O40: the state after the jump is loaded and stands past the end of the same memory. -/
theorem jumpPastTheEndFailsAtTheNextStep : Obligations.JumpPastTheEndFailsAtTheNextStep := by
  intro target s h hl hend
  have hpc : (s.setPc (jumpIndex target)).pc.toNat = target := toNat_jumpIndex h
  exact ⟨_, _, rfl, hpc, step_past_end hl (hpc.symm ▸ hend)⟩

/-- The word of a jump to `pc` decodes to a jump to it. -/
theorem decodeWord_jump_to_pc {pc : Word} (h : pc.toNat < 2 ^ 26) :
    decodeWord (0x08000000#32 ||| pc) = .ok (.j pc.toNat) := by
  have hword : encode (.j pc.toNat) = 0x08000000#32 ||| pc := by
    rw [encode, encodeJ, atBit, BitVec.ofNat_toNat, BitVec.setWidth_eq, BitVec.shiftLeft_zero]
    rfl
  rw [← hword]
  exact decodeOfEncodeIsTheInstruction (.j pc.toNat) (decide_eq_true h)

/-- A step at a jump to `pc` is a step to the same state (43_jump.md R164). -/
theorem step_jump_to_pc {s : State} (hl : s.loaded = true) (hpc : s.pc.toNat < 2 ^ 26)
    (hf : s.pmem.read s.pc.toNat = some (0x08000000#32 ||| s.pc)) : step s = .next s := by
  have hself : jumpIndex s.pc.toNat = s.pc := by rw [jumpIndex, BitVec.ofNat_toNat, BitVec.setWidth_eq]
  rw [step_of_decode hl hf (decodeWord_jump_to_pc hpc), exec, execJ, hself]
  rfl

/-- A machine whose step is a step to itself runs safely for ever. -/
theorem safeFor_of_step_self {s : State} (h : step s = .next s) (k : Nat) : SafeFor k s := by
  induction k with
  | zero => trivial
  | succ k ih => exact ⟨s, h, ih⟩

/-- Settles O41: the step is to the state itself, so every number of steps is safe. -/
theorem jumpToItselfRunsForever : Obligations.JumpToItselfRunsForever :=
  fun _ hl hpc hf => ⟨step_jump_to_pc hl hpc hf, safeFor_of_step_self (step_jump_to_pc hl hpc hf)⟩

/-- A run to `stop` stands there at its end. -/
theorem RunTo.pc_eq {stop : Word} {s t : State} (run : RunTo stop s t) : t.pc = stop := by
  induction run with
  | done here => exact here
  | step _ _ _ ih => exact ih

/-- A run is made of `Ok` steps. -/
theorem RunTo.steps {stop : Word} {s t : State} (run : RunTo stop s t) : Steps s t := by
  induction run with
  | done here => exact .refl _
  | step _ first _ ih => exact steps_of_head first ih

/-- A run ends at one state only: a step has one answer. -/
theorem RunTo.unique {stop : Word} {s t u : State} (run : RunTo stop s t) (other : RunTo stop s u) : u = t := by
  induction run with
  | done here =>
    obtain ⟨-, rfl⟩ | ⟨away, -⟩ := runTo_iff.mp other
    · rfl
    · exact absurd here away
  | step away first _ ih =>
    obtain ⟨here, -⟩ | ⟨-, v, hv, rest⟩ := runTo_iff.mp other
    · exact absurd here away
    · rw [first] at hv
      cases hv
      exact ih rest

/-- Away from `stop` a machine whose step does not go on has no run to it. -/
theorem not_runTo_of_step {stop : Word} {s : State} {r : StepResult} (away : s.pc ≠ stop) (h : step s = r)
    (stops : nextState r = none) (t : State) : ¬ RunTo stop s t := by
  intro run
  obtain ⟨u, hu⟩ := exists_next_of_runTo run away
  rw [← h, hu] at stops
  cases stops

/-- Settles O56: the three facts of a run that ends, and for each way not to go on that no run does. -/
theorem runsEndOnlyAtTheChosenPc : Obligations.RunsEndOnlyAtTheChosenPc := by
  refine ⟨fun stop s t run => ⟨run.pc_eq, run.steps, fun u => run.unique⟩, fun stop s away =>
    ⟨fun hl => not_runTo_of_step away (step_of_not_loaded hl) rfl,
      fun hl hend => not_runTo_of_step away (step_past_end hl hend) rfl, fun w hl hf => ⟨fun h => ?_, fun h => ?_, ?_, ?_⟩⟩⟩
  · exact not_runTo_of_step away (step_of_isUnknown hl hf h) rfl
  · exact not_runTo_of_step away (step_of_isNotImplemented hl hf h) rfl
  · rintro hpc rfl
    exact not_runTo_of_step_self (step_jump_to_pc hl hpc hf) away
  · intro hj htarget
    have hstop : jumpIndex (targetField w) = stop := BitVec.eq_of_toNat_eq ((toNat_jumpIndex_targetField w).trans htarget)
    exact ⟨_, .step away (step_of_decode hl hf (decodeWord_of_primary_j hj)) (.done hstop)⟩

end Sys2Proof.Machine
end

section
/-! PROOFS. The HI/LO family under `full` (45_hilo.md R182 to R193). -/

namespace Sys2Proof.Machine

/-- The frame of `hi` and `lo` written and the advance. -/
theorem onlyHilo_advance (s : State) (hi lo : Word) : OnlyHilo s ((s.setHi hi).setLo lo).advance :=
  ⟨fun _ => rfl, fun _ => rfl, rfl, rfl, rfl⟩

/-- Settles O45: the move is a slot write behind the gate. -/
theorem movesFromHiAndLo : Obligations.MovesFromHiAndLo := by
  intro rd s hfull
  obtain ⟨t, ht, hteffect⟩ := writeSlot_advance_effect s rd s.hi
  obtain ⟨u, hu, hueffect⟩ := writeSlot_advance_effect s rd s.lo
  exact ⟨⟨t, (whenHiloFull_of_full hfull _).trans ht, hteffect⟩, u, (whenHiloFull_of_full hfull _).trans hu, hueffect⟩

/-- Settles O46: the move writes the one register behind the gate, the other keeping its own value. -/
theorem movesToHiAndLo : Obligations.MovesToHiAndLo :=
  fun rs s hfull =>
    ⟨⟨_, whenHiloFull_of_full hfull _, rfl, rfl, onlyHilo_advance s (s.readSlot rs) s.lo, rfl⟩,
      _, whenHiloFull_of_full hfull _, rfl, rfl, onlyHilo_advance s s.hi (s.readSlot rs), rfl⟩

/-! ### Multiplies -/

/-- The two halves are the whole. -/
theorem highHalf_append_lowHalf (p : BitVec 64) : highHalf p ++ lowHalf p = p :=
  BitVec.extractLsb'_append_extractLsb' (w := 32) (len := 32)

/-- The signed product of two words fits 64 bits (45_hilo.md R191). -/
theorem toInt_signedProduct (a b : Word) : (signedProduct a b).toInt = a.toInt * b.toInt := by
  have hlow : -(2 ^ 62) ≤ a.toInt * b.toInt := BitVec.le_toInt_mul_toInt
  have hhigh : a.toInt * b.toInt ≤ 2 ^ 62 := BitVec.toInt_mul_toInt_le
  exact BitVec.toInt_ofInt_eq_self (by decide) (by norm_num; omega) (by norm_num; omega)

/-- The unsigned product of two words fits 64 bits. -/
theorem toNat_unsignedProduct (a b : Word) : (unsignedProduct a b).toNat = a.toNat * b.toNat := by
  rw [unsignedProduct, BitVec.toNat_ofNat]
  have hfits : a.toNat * b.toNat < 2 ^ 32 * 2 ^ 32 := Nat.mul_lt_mul'' a.isLt b.isLt
  exact Nat.mod_eq_of_lt (hfits.trans_eq (by norm_num))

/-- Settles O47: the halves written are the exact product's. -/
theorem multipliesAreExactIn64Bits : Obligations.MultipliesAreExactIn64Bits := by
  refine fun rs rt s hfull => ⟨⟨_, whenHiloFull_of_full hfull _, ?_, onlyHilo_advance s _ _, rfl⟩,
    _, whenHiloFull_of_full hfull _, ?_, onlyHilo_advance s _ _, rfl⟩
  · exact (congrArg BitVec.toInt (highHalf_append_lowHalf _)).trans (toInt_signedProduct _ _)
  · exact (congrArg BitVec.toNat (highHalf_append_lowHalf _)).trans (toNat_unsignedProduct _ _)

/-- Settles O51: MULT leaves the product's halves in `hi` and `lo`, and the moves read them from there. -/
theorem productIsReadByTheNextInstruction : Obligations.ProductIsReadByTheNextInstruction := by
  intro rs rt rd s hfull hwritable
  obtain ⟨⟨t, hmult, hproduct, ⟨-, -, -, -, hcfg⟩, hpc⟩, -⟩ := multipliesAreExactIn64Bits rs rt s hfull
  obtain ⟨⟨v, hmfhi, ⟨hvreads, -⟩, -⟩, u, hmflo, ⟨hureads, -⟩, -, hupc⟩ := movesFromHiAndLo rd t (hcfg ▸ hfull)
  have hwritable' : Writable t rd := by rwa [Writable, hcfg]
  refine ⟨t, u, v, hmult, hmflo, hmfhi, ?_, ?_⟩
  · rw [hvreads hwritable', hureads hwritable', hproduct]
  · rw [hupc, hpc, BitVec.add_assoc]
    rfl

/-! ### Divisions -/

/-- The signed quotient is `BitVec`'s, which wraps at the one overflow alike. -/
theorem signedQuotient_eq_sdiv (a b : Word) : signedQuotient a b = a.sdiv b := by
  apply BitVec.eq_of_toInt_eq
  rw [signedQuotient, BitVec.toInt_ofInt, BitVec.toInt_sdiv]

/-- The signed remainder is exact: it is smaller than the divisor (45_hilo.md R188). -/
theorem toInt_signedRemainder (a b : Word) : (signedRemainder a b).toInt = a.toInt.tmod b.toInt := by
  have hrem : a.toInt - a.toInt.tdiv b.toInt * b.toInt = a.toInt.tmod b.toInt := by
    rw [Int.tmod_def, Int.mul_comm]
  rw [signedRemainder, hrem, ← BitVec.toInt_srem, BitVec.ofInt_toInt]

/-- The remainder has the dividend's sign. -/
theorem tmod_nonpos {a : Int} (b : Int) (h : a ≤ 0) : a.tmod b ≤ 0 := by
  have hneg : 0 ≤ (-a).tmod b := Int.tmod_nonneg b (by omega)
  rw [Int.neg_tmod] at hneg
  omega

/-- Away from the overflow quotient and remainder are the exact truncated ones (45_hilo.md R188, R190). -/
theorem signedDivision_exact {a b : Word} (hne : b ≠ 0#32) (hno : ¬ (a = 0x80000000#32 ∧ b = 0xFFFFFFFF#32)) :
    a.toInt = (signedQuotient a b).toInt * b.toInt + (signedRemainder a b).toInt ∧
      (signedRemainder a b).toInt.natAbs < b.toInt.natAbs ∧
      (0 ≤ a.toInt → 0 ≤ (signedRemainder a b).toInt) ∧ (a.toInt ≤ 0 → (signedRemainder a b).toInt ≤ 0) := by
  have hquotient : (signedQuotient a b).toInt = a.toInt.tdiv b.toInt := by
    rw [signedQuotient_eq_sdiv]
    exact BitVec.toInt_sdiv_of_ne_or_ne a b (not_and_or.mp hno)
  have hdivisor : 0 < b.toInt.natAbs := Int.natAbs_pos.mpr fun h => hne (BitVec.eq_of_toInt_eq h)
  rw [hquotient, toInt_signedRemainder, Int.natAbs_tmod]
  exact ⟨(Int.tdiv_mul_add_tmod _ _).symm, Nat.mod_lt _ hdivisor, Int.tmod_nonneg _, tmod_nonpos _⟩

/-- At the overflow the quotient wraps and the remainder is zero (45_hilo.md R193). -/
theorem signedDivision_overflow :
    signedQuotient 0x80000000#32 0xFFFFFFFF#32 = 0x80000000#32 ∧ signedRemainder 0x80000000#32 0xFFFFFFFF#32 = 0#32 := by
  decide

/-- Settles O48: DIV writes the signed quotient and remainder, which are exact away from the overflow. -/
theorem divGivesTruncatedQuotientAndRemainder : Obligations.DivGivesTruncatedQuotientAndRemainder := by
  intro rs rt s hfull hne
  refine ⟨_, (whenHiloFull_of_full hfull _).trans (whenDivisorNonzero_of_ne hne s _), onlyHilo_advance s _ _, rfl,
    signedDivision_exact hne, ?_⟩
  rintro ⟨hrs, hrt⟩
  rw [hrs, hrt]
  exact signedDivision_overflow

/-- Unsigned quotient and remainder are no greater than the dividend, so they are not narrowed (45_hilo.md R189). -/
theorem toNat_unsignedQuotient (a b : Word) : (unsignedQuotient a b).toNat = a.toNat / b.toNat := by
  rw [unsignedQuotient, BitVec.toNat_ofNat]
  exact Nat.mod_eq_of_lt ((Nat.div_le_self _ _).trans_lt a.isLt)

theorem toNat_unsignedRemainder (a b : Word) : (unsignedRemainder a b).toNat = a.toNat % b.toNat := by
  rw [unsignedRemainder, BitVec.toNat_ofNat]
  exact Nat.mod_eq_of_lt ((Nat.mod_le _ _).trans_lt a.isLt)

theorem unsignedDivision_exact (a : Word) {b : Word} (hne : b ≠ 0#32) :
    a.toNat = (unsignedQuotient a b).toNat * b.toNat + (unsignedRemainder a b).toNat ∧
      (unsignedRemainder a b).toNat < b.toNat := by
  have hdivisor : 0 < b.toNat := Nat.pos_of_ne_zero fun h => hne (BitVec.eq_of_toNat_eq h)
  rw [toNat_unsignedQuotient, toNat_unsignedRemainder]
  exact ⟨(Nat.div_add_mod' _ _).symm, Nat.mod_lt _ hdivisor⟩

/-- Settles O49: DIVU writes the unsigned quotient and remainder, which are exact. -/
theorem divuGivesQuotientAndRemainder : Obligations.DivuGivesQuotientAndRemainder :=
  fun _ _ s hfull hne =>
    ⟨_, (whenHiloFull_of_full hfull _).trans (whenDivisorNonzero_of_ne hne s _), onlyHilo_advance s _ _, rfl,
      unsignedDivision_exact _ hne⟩

end Sys2Proof.Machine
end

section
/-! PROOFS. Names (10_state.md R22, R26; 30_encoding.md R107): registers, variables, labels. -/

namespace Sys2Proof.Machine

/-- The table of 10_state.md R26, row by row, as it is written and behind a `$`. -/
theorem nameToSlot_of_row :
    ∀ row ∈ slotNames, ∀ n ∈ row.2, nameToSlot n = .ok row.1 ∧ nameToSlot ("$" ++ n) = .ok row.1 := by decide

/-- Every name the model resolves stands in that table. -/
theorem row_of_entry : ∀ e ∈ canonicalTable ++ aliasTable, ∃ row ∈ slotNames, e.1 ∈ row.2 := by decide

/-- A name that is no entry's, bare or behind a `$`, fails. -/
theorem nameToSlot_of_no_entry {name : String}
    (h : ∀ e ∈ canonicalTable ++ aliasTable, e.1 ≠ name ∧ "$" ++ e.1 ≠ name) :
    nameToSlot name = .error .unknownRegister := by
  have hnone : (canonicalTable ++ aliasTable).find? (fun e => e.1 == name || "$" ++ e.1 == name) = none := by
    rw [List.find?_eq_none]
    intro e he
    simp [h e he]
  rw [nameToSlot, hnone]

/-- Settles O55: the rows are evaluated, and a name outside them matches no entry. -/
theorem registerNamesResolveToTheirSlots : Obligations.RegisterNamesResolveToTheirSlots := by
  refine ⟨nameToSlot_of_row, fun name h => nameToSlot_of_no_entry fun e he => ?_⟩
  obtain ⟨row, hrow, hname⟩ := row_of_entry e he
  obtain ⟨hbare, hdollar⟩ := h row hrow e.1 hname
  exact ⟨hbare.symm, hdollar.symm⟩

/-! ### Values -/

section
variable {sym : Symbols} {name : String}

theorem value_of_variable {v : Int} (h : sym.vars.lookup name = some v) : sym.value (.text name) = .value v := by
  simp [Symbols.value, h]

theorem value_of_label {a : Nat} (hv : sym.vars.lookup name = none) (hl : sym.labels.lookup name = some a) :
    sym.value (.text name) = .value a := by
  simp [Symbols.value, hv, hl]

theorem value_of_unaligned {cell bytes : Nat} (hv : sym.vars.lookup name = none) (hl : sym.labels.lookup name = none)
    (hu : sym.unaligned.lookup name = some (cell, bytes)) :
    sym.value (.text name) = .unstated (Config.unalignedLabel cell bytes) := by
  simp [Symbols.value, hv, hl, hu]

theorem value_of_unknown (hv : sym.vars.lookup name = none) (hl : sym.labels.lookup name = none)
    (hu : sym.unaligned.lookup name = none) : sym.value (.text name) = .unknown := by
  simp [Symbols.value, hv, hl, hu]

end

/-- What resolving and writing an operand are, by its value (30_encoding.md R107, R108; 20_memory.md R66). -/
theorem resolve_of_value {sym : Symbols} {o : Operand} {v : Int} (h : sym.value o = .value v) (line : Nat) :
    sym.resolve line o = .ok v := by
  simp [Symbols.resolve, h]

theorem resolve_of_unstated {sym : Symbols} {o : Operand} {w : Word} (h : sym.value o = .unstated w) (line : Nat) :
    sym.resolve line o = .error (.unspecified .unalignedLabel) := by
  simp [Symbols.resolve, h]

theorem resolve_of_unknown {sym : Symbols} {o : Operand} (h : sym.value o = .unknown) (line : Nat) :
    sym.resolve line o = .error (.error (.syntaxError line)) := by
  simp [Symbols.resolve, h]

theorem dataValue_of_value {sym : Symbols} {o : Operand} {v low high : Int} (h : sym.value o = .value v)
    (hfit : low ≤ v ∧ v < high) (line : Nat) : dataValue (some sym) line low high o = .ok (BitVec.ofInt 32 v) := by
  simp [dataValue, h, hfit]

theorem dataValue_of_unstated {sym : Symbols} {o : Operand} {w : Word} (h : sym.value o = .unstated w) (line : Nat)
    (low high : Int) : dataValue (some sym) line low high o = .ok w := by
  simp [dataValue, h]

/-- The line `j` with one operand is a jump to the operand's value, unchanged (30_encoding.md R113). -/
theorem instructionLine_j {sym : Symbols} {line target : Nat} {o : Operand} (h : sym.value o = .value target)
    (hfit : target < 2 ^ 26) : instructionLine sym line "j" [o] = .ok (.j target) := by
  have hfield : sym.field line (2 ^ 26) o = .ok target := Symbols.field_of_resolve (resolve_of_value h line) hfit
  have hline : instructionLine sym line "j" [o] = (sym.field line (2 ^ 26) o).map .j := rfl
  rw [hline, hfield]
  rfl

/-- Settles O57: the value of a name, case by case, and what each use makes of it. -/
theorem namesResolveToVariablesThenLabels : Obligations.NamesResolveToVariablesThenLabels := by
  refine fun sym line name => ⟨fun v h => resolve_of_value (value_of_variable h) line, fun a hv hl => ?_,
    fun ⟨cell, bytes⟩ hv hl hu => ?_, fun hv hl hu => resolve_of_unknown (value_of_unknown hv hl hu) line, fun _ => rfl⟩
  · have hvalue := value_of_label hv hl
    exact ⟨resolve_of_value hvalue line, instructionLine_j hvalue⟩
  · have hvalue := value_of_unaligned hv hl hu
    exact ⟨resolve_of_unstated hvalue line, fun low high => ⟨_, dataValue_of_unstated hvalue line low high⟩⟩

end Sys2Proof.Machine
end

section
/-! PROOFS. Images (20_memory.md R52, R63, R64, R65, R67): the bytes of the data directives, and where `main` may stand. -/

namespace Sys2Proof.Machine

/-! ### Bytes -/

/-- The four bytes of a word, most significant first, pack to the word (20_memory.md R52). -/
theorem flushFull_bigEndianBytes (w : Word) : flushFull (bigEndianBytes 4 w) = ([w], []) := by
  have hpack : packWord (w.extractLsb' 24 8) (w.extractLsb' 16 8) (w.extractLsb' 8 8) (w.extractLsb' 0 8) = w := by
    rw [packWord, BitVec.extractLsb'_append_extractLsb'_eq_extractLsb' (show 24 = 16 + 8 from rfl),
      BitVec.extractLsb'_append_extractLsb'_eq_extractLsb' (show 16 = 8 + 8 from rfl),
      BitVec.extractLsb'_append_extractLsb'_eq_extractLsb' (show 8 = 0 + 8 from rfl)]
    exact BitVec.extractLsb'_eq_self
  exact congrArg (fun v => ([v], [])) hpack

/-- Appending bits weights the upper part by the width of the lower. -/
theorem toNat_append_eq_add {m n : Nat} (x : BitVec m) (y : BitVec n) : (x ++ y).toNat = x.toNat * 2 ^ n + y.toNat := by
  rw [BitVec.toNat_append, ← Nat.shiftLeft_add_eq_or_of_lt y.isLt, Nat.shiftLeft_eq]

/-- Four bytes in a word, each at its place. -/
theorem toNat_packWord (b0 b1 b2 b3 : Byte) :
    (packWord b0 b1 b2 b3).toNat = b0.toNat * 2 ^ 24 + b1.toNat * 2 ^ 16 + b2.toNat * 2 ^ 8 + b3.toNat := by
  rw [packWord, toNat_append_eq_add, toNat_append_eq_add, toNat_append_eq_add]
  omega

/-- A partial word of zero bytes is padded to a zero word, and no bytes to none (20_memory.md R63). -/
theorem padPartial_replicate_zero {k : Nat} (h : k < 4) :
    padPartial (List.replicate k 0#8) = List.replicate ((k + 3) / 4) 0#32 := by
  match k, h with
  | 0, _ | 1, _ | 2, _ | 3, _ => rfl

/-! ### Passes -/

theorem run_cons_of_ok {sym : Symbols} {line : Nat} {p q : Pass} {l : Line} (h : p.line (some sym) line l = .ok q)
    (rest : List Line) : Pass.run sym line p (l :: rest) = Pass.run sym (line + 1) q rest := by
  rw [Pass.run, h]

theorem run_cons_of_error {sym : Symbols} {line : Nat} {p : Pass} {l : Line} {stop : Stop}
    (h : p.line (some sym) line l = .error stop) (rest : List Line) : Pass.run sym line p (l :: rest) = (p, some stop) := by
  rw [Pass.run, h]

/-- The names the first pass finds. -/
def symbolsOf (src : List Line) : Symbols := (Pass.layout 0 Pass.start src).sym

theorem assemble_of_run {src : List Line} {p : Pass} (h : Pass.run (symbolsOf src) 0 Pass.start src = (p, none)) :
    assemble src = .done p.finish := by
  rw [symbolsOf] at h
  rw [assemble, h]

theorem assemble_of_stop {src : List Line} {p : Pass} {e : AssembleError}
    (h : Pass.run (symbolsOf src) 0 Pass.start src = (p, some (.error e))) : assemble src = .done (.failed p.words e) := by
  rw [symbolsOf] at h
  rw [assemble, h]

/-- A label of a new name is recorded at the next cell (20_memory.md R66). -/
def Pass.withLabel (p : Pass) (name : String) : Pass :=
  { p with sym := { p.sym with labels := (name, p.words.length) :: p.sym.labels } }

theorem addLabel_eq_ok_iff {p q : Pass} {name : String} :
    p.addLabel name = .ok q ↔ p.sym.hasLabel name = false ∧ p.withLabel name = q := by
  cases h : p.sym.hasLabel name <;> simp [Pass.addLabel, h, Pass.withLabel]

/-- An input that ends at the line `main`, on a word boundary, is entered at its end (20_memory.md R67). -/
theorem finish_withLabel_main {p : Pass} (h : p.pending = []) :
    (p.withLabel "main").finish = .assembled p.words p.words.length := by
  simp [Pass.finish, Pass.withLabel, Pass.padToWord, h, padPartial]

/-- A pass right after `.data`. -/
def Pass.dataStart : Pass := { Pass.start with phase := .data }

/-- The pass at `.text`: the partial word is flushed (20_memory.md R63). -/
def Pass.toCode (p : Pass) : Pass := { p.padToWord with phase := .code }

section
variable {p : Pass} (final : Option Symbols) (line : Nat)

theorem line_directive (h : p.phase = .data) (d : Directive) :
    p.line final line (.directive d) = p.directive final line d := by simp [Pass.line, h]

theorem line_dataLabel (h : p.phase = .data) (name : String) :
    p.line final line (.label name) = p.dataLabel final name := by simp [Pass.line, h]

theorem line_codeLabel (h : p.phase = .code) (name : String) :
    p.line final line (.label name) = p.addLabel name := by simp [Pass.line, h]

theorem line_textMarker (h : p.phase = .data) : p.line final line .textMarker = .ok p.toCode := by
  simp [Pass.line, h, Pass.toCode]

end

/-- A program of one directive and `main` at its end: the image is what the directive writes, padded, and `main` is its
length. -/
theorem assemble_single_directive {d : Directive} {q : Pass} (h : ∀ sym, Pass.dataStart.directive (some sym) 1 d = .ok q) :
    assemble [.dataMarker, .directive d, .textMarker, .label "main"] =
      .done (.assembled q.padToWord.words q.padToWord.words.length) := by
  obtain ⟨hphase, hsym⟩ := Pass.directive_sym (h Pass.start.sym)
  have hnew : q.toCode.sym.hasLabel "main" = false := (congrArg (fun sym => sym.hasLabel "main") hsym).trans rfl
  have hlabel : q.toCode.addLabel "main" = .ok (q.toCode.withLabel "main") := addLabel_eq_ok_iff.mpr ⟨hnew, rfl⟩
  rw [assemble_of_run (p := q.toCode.withLabel "main"), finish_withLabel_main rfl]
  · rfl
  · rw [run_cons_of_ok (q := Pass.dataStart) rfl, run_cons_of_ok ((line_directive _ 1 rfl d).trans (h _)),
      run_cons_of_ok (line_textMarker _ 2 hphase), run_cons_of_ok ((line_codeLabel _ 3 rfl _).trans hlabel), Pass.run]

/-- Settles O52: the zero bytes flush into zero words, and those left over are padded into one. -/
theorem spaceDirectiveGivesZeroWords : Obligations.SpaceDirectiveGivesZeroWords := by
  intro n
  have hspace (sym : Symbols) : Pass.dataStart.directive (some sym) 1 (.space (.number n)) =
      .ok (Pass.dataStart.writeBytes (List.replicate n 0#8)) := by
    simp [Pass.directive, Symbols.resolve, Symbols.value, bind, Except.bind, Pass.item, Pass.dataStart, Pass.start,
      Except.map]
  have hwords : (Pass.dataStart.writeBytes (List.replicate n 0#8)).padToWord.words =
      List.replicate ((n + 3) / 4) 0#32 := by
    have hcount : n / 4 + (n % 4 + 3) / 4 = (n + 3) / 4 := by omega
    simp [Pass.padToWord, Pass.writeBytes, Pass.dataStart, Pass.start, flushFull_replicate_zero,
      padPartial_replicate_zero (Nat.mod_lt n (by decide)), hcount]
  rw [assemble_single_directive hspace, hwords, List.length_replicate]

/-- An item on a word boundary is written (90_conflicts.md C3). -/
theorem item_of_aligned {p : Pass} (h : p.pending = []) (bs : List Byte) : p.item (.ok bs) = .ok (p.writeBytes bs) := by
  simp [Pass.item, h, Except.map]

/-- `.word` of a value that fits appends it as one cell (20_memory.md R64). -/
theorem directive_word {p : Pass} {sym : Symbols} {line : Nat} {o : Operand} {w : Word} (hp : p.pending = [])
    (h : dataValue (some sym) line (-2 ^ 31) (2 ^ 32) o = .ok w) :
    p.directive (some sym) line (.word o) = .ok { p with words := p.words ++ [w], pending := [] } := by
  rw [Pass.directive, h]
  refine (item_of_aligned hp _).trans ?_
  rw [Pass.writeBytes, hp, List.nil_append, flushFull_bigEndianBytes]

/-- Settles O53: a value in the word's range is its pattern, whose bytes pack to it. -/
theorem wordDirectiveIsBigEndian : Obligations.WordDirectiveIsBigEndian := by
  refine ⟨fun v hlow hhigh => ?_, toNat_packWord⟩
  have hword (sym : Symbols) : Pass.dataStart.directive (some sym) 1 (.word (.number v)) =
      .ok { Pass.dataStart with words := [BitVec.ofInt 32 v] } :=
    directive_word rfl (dataValue_of_value rfl ⟨hlow, hhigh⟩ 1)
  exact assemble_single_directive hword

end Sys2Proof.Machine
end

section
/-! PROOFS. Where `main` stands (20_memory.md R66, R67): in the image or at its end, and off a word boundary nowhere. -/

namespace Sys2Proof.Machine

/-! ### Labels lie inside the image -/

/-- Every label of a pass is a line of the source and stands at a cell written or at the next one. -/
def LabelsInside (src : List Line) (p : Pass) : Prop :=
  ∀ c ∈ p.sym.labels, Line.label c.1 ∈ src ∧ c.2 ≤ p.words.length

/-- Labels stay inside while words are appended and no label is recorded. -/
theorem LabelsInside.of_prefix {src : List Line} {p q : Pass} (h : LabelsInside src p)
    (hlabels : q.sym.labels = p.sym.labels) (hwords : p.words <+: q.words) : LabelsInside src q := by
  intro c hc
  obtain ⟨hline, hcell⟩ := h c (hlabels ▸ hc)
  exact ⟨hline, hcell.trans hwords.length_le⟩

/-- A label recorded stands at the next cell. -/
theorem LabelsInside.withLabel {src : List Line} {p : Pass} (h : LabelsInside src p) {name : String}
    (hline : Line.label name ∈ src) : LabelsInside src (p.withLabel name) := by
  intro c hc
  rcases List.mem_cons.mp hc with rfl | hc
  · exact ⟨hline, Nat.le_refl _⟩
  · exact h c hc

theorem item_prefix {p q : Pass} {bytes : Except Stop (List Byte)} (h : p.item bytes = .ok q) : p.words <+: q.words := by
  unfold Pass.item at h
  split at h
  · cases bytes with
    | error _ => cases h
    | ok bs => cases h; exact p.writeBytes_prefix bs
  · cases h

theorem align_prefix {p q : Pass} {n : Int} (h : p.align n = .ok q) : p.words <+: q.words := by
  unfold Pass.align at h
  split at h
  · split at h <;> cases h
    · exact List.prefix_rfl
    · exact p.padToWord_prefix
  · cases h

/-- A directive appends words only. -/
theorem directive_prefix {p q : Pass} {final : Option Symbols} {line : Nat} {d : Directive}
    (h : p.directive final line d = .ok q) : p.words <+: q.words := by
  cases d with
  | align n =>
    simp only [Pass.directive, bind, Except.bind] at h
    split at h
    · cases h
    · exact align_prefix h
  | space n =>
    simp only [Pass.directive, bind, Except.bind] at h
    split at h
    · cases h
    · split at h
      · exact item_prefix h
      · cases h
  | word _ | halfword _ | byte _ | ascii _ | asciiz _ => exact item_prefix h

/-- An instruction line appends one word (20_memory.md R68). -/
theorem instruction_prefix {p q : Pass} {final : Option Symbols} {make : Symbols → Except Stop Instr}
    (h : p.instruction final make = .ok q) : p.words <+: q.words := by
  cases final with
  | none => cases h; exact ⟨_, rfl⟩
  | some sym =>
    simp only [Pass.instruction, bind, Except.bind] at h
    split at h
    · cases h
    · cases h; exact ⟨_, rfl⟩

/-- A constant changes variables only. -/
theorem addVar_labels {p q : Pass} {line : Nat} {name : String} {v : Operand} (h : p.addVar line name v = .ok q) :
    q.sym.labels = p.sym.labels ∧ q.words = p.words := by
  simp only [Pass.addVar, bind, Except.bind] at h
  split at h
  · cases h
  · split at h
    · cases h
    · cases h; exact ⟨rfl, rfl⟩

theorem LabelsInside.dataLabel {src : List Line} {p q : Pass} (inside : LabelsInside src p) {final : Option Symbols}
    {name : String} (hline : Line.label name ∈ src) (h : p.dataLabel final name = .ok q) : LabelsInside src q := by
  unfold Pass.dataLabel at h
  split at h
  · obtain ⟨-, rfl⟩ := addLabel_eq_ok_iff.mp h
    exact inside.withLabel hline
  · cases final with
    | none =>
      simp only [Pass.addUnaligned] at h
      split at h
      · cases h
      · cases h; exact inside.of_prefix rfl List.prefix_rfl
    | some _ => cases h

/-- Every line of the source keeps the labels inside. -/
theorem LabelsInside.line {src : List Line} {p q : Pass} (inside : LabelsInside src p) {final : Option Symbols} {line : Nat}
    {l : Line} (hl : l ∈ src) (h : p.line final line l = .ok q) : LabelsInside src q := by
  unfold Pass.line at h
  split at h
  · obtain ⟨hlabels, hwords⟩ := addVar_labels h
    exact inside.of_prefix hlabels (hwords ▸ List.prefix_rfl)
  · cases h
    exact inside.of_prefix rfl List.prefix_rfl
  · exact inside.dataLabel hl h
  · exact inside.of_prefix (congrArg _ (Pass.directive_sym h).2) (directive_prefix h)
  · cases h
    exact inside.of_prefix rfl p.padToWord_prefix
  · obtain ⟨-, rfl⟩ := addLabel_eq_ok_iff.mp h
    exact inside.withLabel hl
  · exact inside.of_prefix (congrArg _ (Pass.instruction_sym h).2) (instruction_prefix h)
  · exact inside.of_prefix (congrArg _ (Pass.instruction_sym h).2) (instruction_prefix h)
  · cases h

/-- A pass over lines of the source keeps the labels inside, by induction on the lines. -/
theorem LabelsInside.run {src rest : List Line} {sym : Symbols} {line : Nat} {p q : Pass} {stop : Option Stop}
    (inside : LabelsInside src p) (hrest : rest ⊆ src) (h : Pass.run sym line p rest = (q, stop)) :
    LabelsInside src q := by
  induction rest generalizing p line with
  | nil => cases h; exact inside
  | cons l rest ih =>
    obtain ⟨hl, hrest⟩ := List.cons_subset.mp hrest
    cases hline : p.line (some sym) line l with
    | error stop' =>
      rw [run_cons_of_error hline] at h
      cases h
      exact inside
    | ok r =>
      rw [run_cons_of_ok hline] at h
      exact ih (inside.line hl hline) hrest h

/-- An image is handed over only by a pass that ran to its end. -/
theorem run_of_assemble {src : List Line} {words : List Word} {main : Nat}
    (h : assemble src = .done (.assembled words main)) :
    ∃ p, Pass.run (symbolsOf src) 0 Pass.start src = (p, none) ∧ p.finish = .assembled words main := by
  rw [assemble, ← symbolsOf] at h
  split at h
  · next p hrun => exact ⟨p, hrun, AssembleOutcome.done.inj h⟩
  · cases h
  · cases h

/-- Settles O54: the entry is the place of the label `main`, which lies inside the words of the pass. -/
theorem entryIsInsideTheImage : Obligations.EntryIsInsideTheImage := by
  intro src words main h
  obtain ⟨p, hrun, hfinish⟩ := run_of_assemble h
  have start : LabelsInside src Pass.start := fun _ hc => absurd hc List.not_mem_nil
  have inside : LabelsInside src p := start.run (List.Subset.refl src) hrun
  unfold Pass.finish at hfinish
  split at hfinish
  · next hlookup =>
    cases hfinish
    obtain ⟨before, after, hlabels, -⟩ := List.lookup_eq_some_iff.mp hlookup
    obtain ⟨hline, hcell⟩ := inside ("main", main) (by simp [hlabels])
    exact ⟨hline, hcell.trans p.padToWord_prefix.length_le⟩
  · cases hfinish

/-! ### `main` off a word boundary -/

/-- Laying out a list of lines is laying out its parts in turn. -/
theorem layout_append (line : Nat) (p : Pass) (above below : List Line) :
    Pass.layout line p (above ++ below) = Pass.layout (line + above.length) (Pass.layout line p above) below := by
  induction above generalizing line p with
  | nil => rfl
  | cons l above ih =>
    have hline : line + 1 + above.length = line + (l :: above).length := by simp; omega
    rw [List.cons_append, Pass.layout, Pass.layout]
    split
    · rw [ih, hline]
    · rw [ih, hline]

/-- A label laid out past the header keeps its value whatever lines follow (30_encoding.md R107, notes/assumptions/33.md). -/
theorem value_symbolsOf_append (above below : List Line) {name : String}
    (hphase : (Pass.layout 0 Pass.start above).phase ≠ .header) (hlabel : (symbolsOf above).hasLabel name = true) :
    (symbolsOf (above ++ below)).value (.text name) = (symbolsOf above).value (.text name) := by
  rw [symbolsOf, layout_append]
  exact (Pass.layout_keepsNames hphase _ below).value_eq hlabel

/-- A pass with other bytes in its partial word. -/
def Pass.withPending (p : Pass) (bytes : List Byte) : Pass := { p with pending := bytes }

/-- `.halfword` of a value that fits leaves its two bytes pending (20_memory.md R63, R64). -/
theorem directive_halfword {p : Pass} {sym : Symbols} {line : Nat} {o : Operand} {w : Word} (hp : p.pending = [])
    (h : dataValue (some sym) line (-2 ^ 15) (2 ^ 16) o = .ok w) :
    p.directive (some sym) line (.halfword o) = .ok (p.withPending (bigEndianBytes 2 w)) := by
  rw [Pass.directive, h]
  refine (item_of_aligned hp _).trans ?_
  simp [Pass.writeBytes, Pass.withPending, hp, bigEndianBytes, flushFull]

/-- A label `main` with bytes pending is `InvalidMain` (20_memory.md R67). -/
theorem dataLabel_main_of_pending {p : Pass} (sym : Symbols) (h : p.pending ≠ []) :
    p.dataLabel (some sym) "main" = .error (.error .invalidMain) := by
  simp [Pass.dataLabel, h]

/-- A halfword on a word boundary, and `main` right after it: the pass stops there, with the words it had. -/
theorem run_halfword_main {p : Pass} {sym : Symbols} {line : Nat} {o : Operand} {w : Word} (hphase : p.phase = .data)
    (hp : p.pending = []) (h : dataValue (some sym) line (-2 ^ 15) (2 ^ 16) o = .ok w) (rest : List Line) :
    Pass.run sym line p (.directive (.halfword o) :: .label "main" :: rest) =
      (p.withPending (bigEndianBytes 2 w), some (.error .invalidMain)) := by
  have hmain : (p.withPending (bigEndianBytes 2 w)).line (some sym) (line + 1) (.label "main") =
      .error (.error .invalidMain) :=
    (line_dataLabel (p := p.withPending (bigEndianBytes 2 w)) _ _ hphase _).trans (dataLabel_main_of_pending sym nofun)
  rw [run_cons_of_ok ((line_directive _ line hphase _).trans (directive_halfword hp h)),
    run_cons_of_error hmain]

/-- A program of one halfword and `main`, whatever follows. -/
theorem assemble_halfword_main {o : Operand} {w : Word} {rest : List Line}
    (h : dataValue (some (symbolsOf (.dataMarker :: .directive (.halfword o) :: .label "main" :: rest))) 1 (-2 ^ 15)
      (2 ^ 16) o = .ok w) :
    assemble (.dataMarker :: .directive (.halfword o) :: .label "main" :: rest) = .done (.failed [] .invalidMain) :=
  assemble_of_stop ((run_cons_of_ok (q := Pass.dataStart) rfl _).trans (run_halfword_main rfl rfl h rest))

/-- A program of one word, a halfword of 1 and `main`, whatever follows: the word is the only one made. -/
theorem assemble_word_halfword_main {o : Operand} {w : Word} {rest : List Line}
    (h : dataValue (some (symbolsOf (.dataMarker :: .directive (.word o) :: .directive (.halfword (.number 1)) ::
      .label "main" :: rest))) 1 (-2 ^ 31) (2 ^ 32) o = .ok w) :
    assemble (.dataMarker :: .directive (.word o) :: .directive (.halfword (.number 1)) :: .label "main" :: rest) =
      .done (.failed [w] .invalidMain) := by
  have hword := (line_directive _ 1 rfl _).trans (directive_word (p := Pass.dataStart) rfl h)
  have hone (sym : Symbols) : dataValue (some sym) 2 (-2 ^ 15) (2 ^ 16) (.number 1) = .ok 1#32 :=
    dataValue_of_value (v := 1) rfl (by decide) 2
  exact assemble_of_stop ((run_cons_of_ok (q := Pass.dataStart) rfl _).trans
    ((run_cons_of_ok hword _).trans (run_halfword_main rfl rfl (hone _) rest)))

/-- Settles O58: the data above `main` has a value in each case, so the pass reaches `main` with a halfword pending. -/
theorem misalignedMainIsInvalidMain : Obligations.MisalignedMainIsInvalidMain := by
  refine fun rest => ⟨fun v hlow hhigh => ?_, ?_, ?_, ?_⟩
  · exact assemble_halfword_main (dataValue_of_value rfl ⟨hlow, hhigh⟩ 1)
  · have hmain := value_symbolsOf_append [.dataMarker, .directive (.halfword (.text "main")), .label "main"] rest
      (name := "main") nofun rfl
    exact assemble_halfword_main (dataValue_of_unstated hmain 1 _ _)
  · have hmain := value_symbolsOf_append [.dataMarker, .directive (.word (.text "main")),
      .directive (.halfword (.number 1)), .label "main"] rest (name := "main") nofun rfl
    exact ⟨_, assemble_word_halfword_main (dataValue_of_unstated hmain 1 _ _)⟩
  · have hend := value_symbolsOf_append [.dataMarker, .directive (.word (.text "end")),
      .directive (.halfword (.number 1)), .label "main", .textMarker, .label "end"] rest (name := "end") nofun rfl
    exact assemble_word_halfword_main (dataValue_of_value (v := 2) hend (by decide) 1)

end Sys2Proof.Machine
end
